-- ==== Sys2Proof/Word.lean ====
section
/-! DEFINITION. The words of the CTF codec and the values that travel on its ports: numerals, requests, transactions. -/

namespace Sys2Proof

/-- A word of ports `a` and `r`: 32 bits, `AW` and `RW` of R7 (10_state.md R14). -/
abbrev Word := BitVec 32

/-- A packed numeral: `CTFW` = 8 bits (R6, 30_encoding.md R39). -/
abbrev Byte := BitVec 8

/-- The operation select of port `op`: `OPW` = 3 bits (R7, R14). -/
abbrev OpSelect := BitVec 3

/-- The mantissa field: `MW` = 5 bits (R6, R16). -/
abbrev Mantissa := BitVec 5

/-- The exponent field: `EW` = 3 bits (R6, R16). -/
abbrev Exponent := BitVec 3

/-- The request word `REQ = op ‖ a`: `REQW` = 35 bits (R7, R43). -/
abbrev RequestWord := BitVec 35

/-- A CTF numeral (R16): the two fields, each exactly as wide as its domain, so that no numeral is
out of range (R18). The mantissa has no hidden bit and the exponent no bias. -/
structure Numeral where
  mantissa : Mantissa
  exponent : Exponent
  deriving DecidableEq, Repr

/-- One request: an operation select and one operand word (R2, R14). -/
structure Request where
  op : OpSelect
  a  : Word
  deriving DecidableEq, Repr

/-- One transaction: a request together with the one response word it produces (R2). -/
structure Transaction where
  request  : Request
  response : Word
  deriving DecidableEq, Repr

end Sys2Proof
end

