-- ==== Sys2Proof/Config.lean ====
section
/-! DEFINITION. The parameters of the block: those the source fixes (R6), those the spec fixes (R7), and the one it leaves open. -/

namespace Sys2Proof.Config

/-- `MW`, width of the mantissa (R6). -/
abbrev mw : Nat := 5

/-- `EW`, width of the exponent (R6). -/
abbrev ew : Nat := 3

/-- `CTFW`, width of a packed numeral (R6). -/
abbrev ctfw : Nat := 8

/-- `BASE`: one exponent step multiplies the magnitude by 4 (R6). -/
abbrev base : Nat := 4

/-- `MMAX`, the largest mantissa (R6). -/
abbrev mmax : Nat := 31

/-- `EMAX`, the largest exponent (R6). -/
abbrev emax : Nat := 7

/-- `MAXMAG`, the magnitude of `SAT` (R6). -/
abbrev maxMag : Nat := 507904

/-- `ROLL`, the mantissa a carry of `ceil` sets at the next exponent (R6). -/
abbrev roll : Nat := 8

/-- `VW`, width of the magnitude operand (R7, 92_eei_decisions.md D2). -/
abbrev vw : Nat := 32

/-- `AW`, width of port `a` (R7). -/
abbrev aw : Nat := 32

/-- `RW`, width of port `r` (R7). -/
abbrev resw : Nat := 32

/-- `OPW`, width of port `op` (R7). -/
abbrev opw : Nat := 3

/-- `MAGW`, the bits a decoded magnitude can occupy (R7). -/
abbrev magw : Nat := 19

/-- `REQW`, width of the request word (R7). -/
abbrev reqw : Nat := 35

/-- `LATENCY`, the clock edges a wrapper puts between request and response: OPEN (R7, R108, D17).
A value nothing constrains, and no definition of the model depends on it (notes/assumptions/9.md). -/
opaque latency : Nat

end Sys2Proof.Config
end

