-- ==== Sys2Proof/Syntax.lean ====
section
/-! DEFINITION. The eight operations of the block (30_encoding.md R46), each with the operand fields its format reads (R44). -/

namespace Sys2Proof

/-- The operations of spec/opcode_table.json, one constructor a row. An operation carries the fields of `a`
that its operand format reads (R44) and no others: the remaining bits of `a` are ignored (R51). -/
inductive Instr where
  /-- `CTF.ZERO`, op 0, format N: the source's `default` (R58). -/
  | zero
  /-- `CTF.SAT`, op 1, format N: the source's `saturated()` (R60). -/
  | sat
  /-- `CTF.FLOOR v`, op 2, format V: `v = a[31:0]` (R63). -/
  | floor (v : Word)
  /-- `CTF.CEIL v`, op 3, format V: `v = a[31:0]` (R67). -/
  | ceil (v : Word)
  /-- `CTF.UNPACK b`, op 4, format B: `b = a[7:0]` (R72). -/
  | unpack (b : Byte)
  /-- `CTF.DECODE b`, op 5, format B: `b = a[7:0]` (R74). -/
  | decode (b : Byte)
  /-- `CTF.PACK m, e`, op 6, format F: `m = a[4:0]`, `e = a[10:8]` (R77). -/
  | pack (m : Mantissa) (e : Exponent)
  /-- `CTF.EQ x, y`, op 7, format BB: `x = a[7:0]`, `y = a[15:8]` (R81). -/
  | eq (x y : Byte)
  deriving DecidableEq, Repr

end Sys2Proof
end

