-- ==== Sys2Proof/WellFormed.lean ====
section
/-! DEFINITION. Which operands may be written: the ranges of the assembler syntax (30_encoding.md R55). -/

namespace Sys2Proof

/-- An operation as it is written in a source line (R55): its operands are natural numbers, not yet known to
fit the wires. The range check is the assembler's; the block cannot see an operand out of range (R55, R98). -/
inductive SourceOp where
  | zero
  | sat
  | floor (v : Nat)
  | ceil (v : Nat)
  | unpack (b : Nat)
  | decode (b : Nat)
  | pack (m e : Nat)
  | eq (x y : Nat)
  deriving DecidableEq, Repr

/-- `0 <= v < 2^32` (R55). -/
def magnitudeInRange (v : Nat) : Bool := decide (v < 2 ^ Config.vw)

/-- `0 <= b <= 255` (R55). -/
def byteInRange (b : Nat) : Bool := decide (b < 2 ^ Config.ctfw)

/-- `0 <= m <= 31` (R55). -/
def mantissaInRange (m : Nat) : Bool := decide (m ≤ Config.mmax)

/-- `0 <= e <= 7` (R55). -/
def exponentInRange (e : Nat) : Bool := decide (e ≤ Config.emax)

/-- Every operand of the line is in the range R55 states for it. -/
def SourceOp.wellFormed : SourceOp → Bool
  | .zero | .sat => true
  | .floor v | .ceil v => magnitudeInRange v
  | .unpack b | .decode b => byteInRange b
  | .pack m e => mantissaInRange m && exponentInRange e
  | .eq x y => byteInRange x && byteInRange y

/-- The line R55 writes for an operation of the block. -/
def Instr.source : Instr → SourceOp
  | .zero => .zero
  | .sat => .sat
  | .floor v => .floor v.toNat
  | .ceil v => .ceil v.toNat
  | .unpack b => .unpack b.toNat
  | .decode b => .decode b.toNat
  | .pack m e => .pack m.toNat e.toNat
  | .eq x y => .eq x.toNat y.toNat

/-- An operation is well-formed when its operands are in R55's ranges. The field widths make every one so
(10_state.md R18, 41_decoder.md R77): `Laws.Decode` proves it once. -/
def Instr.wellFormed (i : Instr) : Bool := i.source.wellFormed

end Sys2Proof
end

