-- ==== Sys2Proof/Decode.lean ====
section
/-! DEFINITION. Requests to operations and back: the request word (30_encoding.md R43), the operand formats (R44), the
operation map (R46, R48), and the encoder that writes zeros in ignored bits (R55). -/

namespace Sys2Proof

/-- `REQ = op ‖ a`: `REQ[34:32] = op`, `REQ[31:0] = a` (R43). -/
def Request.word (q : Request) : RequestWord := q.op ++ q.a

/-- The two ports of a request word (R43). -/
def Request.ofWord (w : RequestWord) : Request :=
  { op := w.extractLsb' 32 3, a := w.extractLsb' 0 32 }

/-- `a[7:0]`: `b` of format B, `x` of format BB (R44). -/
def lowByte (a : Word) : Byte := a.extractLsb' 0 8

/-- `a[15:8]`: `y` of format BB (R44). -/
def secondByte (a : Word) : Byte := a.extractLsb' 8 8

/-- `a[4:0]`: `m` of format F (R44). -/
def mantissaField (a : Word) : Mantissa := a.extractLsb' 0 5

/-- `a[10:8]`: `e` of format F (R44). -/
def exponentField (a : Word) : Exponent := a.extractLsb' 8 3

/-- The operation map (R46): the number `op` selects the operation. Each of the eight codes has one, so decoding is
total (R50); bits of `a` outside the operation's format are not looked at (R51). -/
def decodeRequest (q : Request) : Instr :=
  match q.op.toFin with
  | 0 => .zero
  | 1 => .sat
  | 2 => .floor q.a
  | 3 => .ceil q.a
  | 4 => .unpack (lowByte q.a)
  | 5 => .decode (lowByte q.a)
  | 6 => .pack (mantissaField q.a) (exponentField q.a)
  | 7 => .eq (lowByte q.a) (secondByte q.a)

/-- Why a number is no request. -/
inductive DecodeError where
  /-- Raised by `decodeWord` on a number of more than 35 bits: there is one request length and no
  prefixed or longer form (R43, R54), so no wires carry it. Safe: nothing is run (notes/assumptions/7.md). -/
  | widerThanRequest (w : Nat)
  deriving DecidableEq, Repr

/-- Decoding a number read as a request word: total, refusing by name what is wider than 35 bits (R54). -/
def decodeWord (w : Nat) : Except DecodeError Instr :=
  if w < 2 ^ Config.reqw then .ok (decodeRequest (Request.ofWord (BitVec.ofNat 35 w)))
  else .error (.widerThanRequest w)

/-- The operation the decoder reads from a row of spec/opcode_table.json: the number's low `nbits` bits, every
bit above them 0. -/
def decodeTableWord (nbits w : Nat) : Option Instr :=
  match decodeWord (w % 2 ^ nbits) with
  | .ok i => some i
  | .error _ => none

/-- The code of each operation (R46). -/
def opcodeOf : Instr → OpSelect
  | .zero => 0
  | .sat => 1
  | .floor _ => 2
  | .ceil _ => 3
  | .unpack _ => 4
  | .decode _ => 5
  | .pack _ _ => 6
  | .eq _ _ => 7

/-- The operand word the assembler writes (R55): the format's fields in place, 0 in every ignored bit. -/
def operandOf : Instr → Word
  | .zero => 0
  | .sat => 0
  | .floor v => v
  | .ceil v => v
  | .unpack b => b.setWidth 32
  | .decode b => b.setWidth 32
  | .pack m e => (e.setWidth 32 <<< 8) ||| m.setWidth 32
  | .eq x y => (y.setWidth 32 <<< 8) ||| x.setWidth 32

/-- The request of an operation. -/
def encode (i : Instr) : Request := { op := opcodeOf i, a := operandOf i }

/-- The bits of `a` that the operation with this code reads (R44): none for N, all for V, `a[7:0]` for B,
`a[4:0]` and `a[10:8]` for F, `a[15:0]` for BB. -/
def readMask (op : OpSelect) : Word :=
  match op.toFin with
  | 0 => 0x00000000
  | 1 => 0x00000000
  | 2 => 0xFFFFFFFF
  | 3 => 0xFFFFFFFF
  | 4 => 0x000000FF
  | 5 => 0x000000FF
  | 6 => 0x0000071F
  | 7 => 0x0000FFFF

/-- The mask of every operation (R48): an operation is recognised from `op` alone. -/
def matchMask : RequestWord := 0x700000000

/-- The match value of each operation (R48), as the table gives it. -/
def matchOf : Instr → RequestWord
  | .zero => 0x000000000
  | .sat => 0x100000000
  | .floor _ => 0x200000000
  | .ceil _ => 0x300000000
  | .unpack _ => 0x400000000
  | .decode _ => 0x500000000
  | .pack _ _ => 0x600000000
  | .eq _ _ => 0x700000000

end Sys2Proof
end

