-- ==== Sys2Proof/Machine/State.lean ====
section
/-! DEFINITION. What a run of the block consists of: the signals on its ports and the host's two lists. The block itself
holds no state (10_state.md R13). -/

namespace Sys2Proof.Machine

/-- The signals on the block's three ports (R14) and the host's side of a run (70_reset_and_hazards.md R109).
None of it is architectural state: the block has no register, program counter, flag, memory or hidden state
(R13). Nothing a transaction answers depends on any field but the request (notes/assumptions/1.md). -/
structure State where
  /-- Input port `op` (R14). -/
  op : OpSelect
  /-- Input port `a` (R14). -/
  a : Word
  /-- Output port `r` (R14). -/
  r : Word
  /-- The requests the host has yet to present, first one first (R109: a program is a finite list of requests). -/
  pending : List Request
  /-- The transactions completed, oldest first (R2; R109: a run is the requests with their responses). -/
  transcript : List Transaction
  deriving DecidableEq, Repr

/-- Faults of the block: there are none. "The block raises no exception, fault, trap or error, for any request"
(60_exceptions.md R86), and a step function "needs no fault or refusal constructor" (R98). Nobody raises a
fault; an empty type says so (notes/assumptions/8.md). Safe. -/
inductive Fault where
  deriving DecidableEq, Repr

/-- Refusals. -/
inductive Refusal where
  /-- Kept for the host's form of `exec`: an operation without a meaning is rejected by name. Raised by no arm,
  since every operation of the table has its meaning (R98). Safe: it stops the run. -/
  | notModelled (mnemonic : String)
  deriving DecidableEq, Repr

/-- The start of the model. The block has no reset (R99, R27), so nothing here is a reset value of the spec:
the inputs are 0 until the host presents a request (DESIGN CHOICE, notes/assumptions/2.md); `r` is then
`exec(0, 0)` = 0 by R27 (DEDUCED, notes/assumptions/3.md); the host has no request and has had no response, both lists being empty
(DESIGN CHOICE, notes/assumptions/4.md). -/
def State.reset : State :=
  { op := 0, a := 0, r := 0, pending := [], transcript := [] }

end Sys2Proof.Machine
end

