-- ==== Sys2Proof/Machine/Ops.lean ====
section
/-! DEFINITION. The named functions of the pseudocode (00_scope.md R10) on numerals and magnitudes, and the operations on a
run: presenting a request, answering it, recording the transaction. The block has no memory, no register file, no
exception entry and no return (R28, R13, R90, R91), so there are no operations for them. -/

namespace Sys2Proof.Machine

/-- `ZERO`, the numeral (0, 0) (10_state.md R20, D8). -/
def zeroNumeral : Numeral := { mantissa := 0, exponent := 0 }

/-- `SAT`, the numeral (31, 7) (R19). -/
def satNumeral : Numeral := { mantissa := 31, exponent := 7 }

/-- `mag((m, e)) = m * 4^e`, an exact natural number (R17). It is also the source's `decode` (41_decoder.md R73). -/
def mag (c : Numeral) : Nat := c.mantissa.toNat * Config.base ^ c.exponent.toNat

/-- `pack((m, e)) = (e << 5) | m`, an 8-bit number (30_encoding.md R40). -/
def pack (c : Numeral) : Byte := (c.exponent.setWidth 8 <<< 5) ||| c.mantissa.setWidth 8

/-- `unpack(b)`: `m = b & 0x1F`, `e = (b >> 5) & 0x07`, total on all bytes (R41, R52). -/
def unpack (b : Byte) : Numeral :=
  { mantissa := (b &&& 0x1F).setWidth 5, exponent := ((b >>> 5) &&& 0x07).setWidth 3 }

/-- Magnitude equality, the equality of numerals (R21). -/
def meq (c d : Numeral) : Bool := mag c == mag d

/-- Bit equality (R22): used to state laws; the block has no operation for it (42_compare.md R82, D9). -/
def biteq (c d : Numeral) : Bool := c.mantissa == d.mantissa && c.exponent == d.exponent

/-- Normal form: `exponent == 0` or `mantissa >= 8` (R25). -/
def isNormal (c : Numeral) : Bool := c.exponent == 0 || decide (8 ≤ c.mantissa.toNat)

/-- The loop of `floor` (40_encoder.md R62) with `left` exponent steps left, that is at exponent `7 - left`, and
the value `rem`. While `rem >= 32` it drops two low bits and goes up one exponent; with no step left
(`e == 7`) it answers `SAT` instead (C2, D23). -/
def floorFrom (left rem : Nat) : Numeral :=
  match left with
  | 0 =>
    if 32 ≤ rem then satNumeral
    else { mantissa := BitVec.ofNat 5 rem, exponent := BitVec.ofNat 3 Config.emax }
  | left + 1 =>
    if 32 ≤ rem then floorFrom left (rem >>> 2)
    else { mantissa := BitVec.ofNat 5 rem, exponent := BitVec.ofNat 3 (Config.emax - (left + 1)) }

/-- `floor(v)`, on every natural number (R62, R7): the loop from exponent 0. -/
def floor (v : Nat) : Numeral := floorFrom Config.emax v

/-- `ceil(v)`, on every natural number (R66, R7), with its five arms in the order R66 tests them (R89); the
fifth is the source's dead arm (R68, C4). -/
def ceil (v : Nat) : Numeral :=
  let f := floor v
  if meq f satNumeral then f
  else if mag f = v then f
  else if f.mantissa.toNat < Config.mmax then { f with mantissa := f.mantissa + 1 }
  else if f.exponent.toNat < Config.emax then
    { mantissa := BitVec.ofNat 5 Config.roll, exponent := f.exponent + 1 }
  else satNumeral

/-- The request on the input ports. -/
def State.onPorts (s : State) : Request := { op := s.op, a := s.a }

/-- The host presents its next request on `op` and `a`; with none left it keeps holding the last one
(R109, R110; notes/assumptions/6.md). -/
def State.present (s : State) : State :=
  match s.pending with
  | [] => s
  | q :: rest => { s with op := q.op, a := q.a, pending := rest }

/-- The block's whole effect in a transaction: its response word stands on `r` (R13, R32, R90). -/
def State.answer (s : State) (response : Word) : State := { s with r := response }

/-- The host takes the response of the request on the ports (R109). -/
def State.record (s : State) : State :=
  { s with transcript := s.transcript ++ [{ request := s.onPorts, response := s.r }] }

/-- What the host does with the outcome of a transaction that began in `before`: if it had presented a pending
request, it records the transaction; a request merely held is not a new transaction. -/
def collect (before : State) (o : Host.Outcome State Fault Refusal) : Host.Outcome State Fault Refusal :=
  match before.pending, o with
  | _ :: _, .next t => .next t.record
  | _, other => other

end Sys2Proof.Machine
end

