-- ==== Sys2Proof/Machine/Operands.lean ====
section
/-! DEFINITION. The operands as an operation uses them (30_encoding.md R49) and the result formats of `r` (R45). The fields
themselves are cut out of `a` once, by the decoder (Sys2Proof/Decode.lean, R44). -/

namespace Sys2Proof.Machine

/-- Format V: the natural number the bits of `a[31:0]` spell; nothing is signed (R49, R8). -/
def magnitudeOperand (v : Word) : Nat := v.toNat

/-- Formats B and BB: a byte operand split by `unpack`; every byte is valid (R49, R52). -/
def byteOperand (b : Byte) : Numeral := unpack b

/-- Format F: the two fields as a numeral, in range by their widths (R49, R18, 41_decoder.md R77). -/
def fieldsOperand (m : Mantissa) (e : Exponent) : Numeral := { mantissa := m, exponent := e }

/-- Result format "byte": `r[7:0]` = the packed numeral, `r[31:8]` = 0 (R45). -/
def byteResult (c : Numeral) : Word := (pack c).setWidth 32

/-- Result format "fields": `r[4:0]` = mantissa, `r[10:8]` = exponent, every other bit 0 (R45). -/
def fieldsResult (c : Numeral) : Word := (c.exponent.setWidth 32 <<< 8) ||| c.mantissa.setWidth 32

/-- Result format "magnitude": `r` = the magnitude, which fits `r[18:0]` (R45, 10_state.md R17). -/
def magnitudeResult (n : Nat) : Word := BitVec.ofNat 32 n

end Sys2Proof.Machine
end

