-- ==== Sys2Proof/Machine/Flags.lean ====
section
/-! DEFINITION. The one Boolean result of the block. There are no flags: no operation writes an overflow, inexact or
condition flag (10_state.md R13, table row B3); the answer of `CTF.EQ` is a result word. -/

namespace Sys2Proof.Machine

/-- Result format "flag": `r[0]` = 1 when the magnitudes are equal, 0 when not; `r[31:1]` = 0 (30_encoding.md R45, D19). -/
def flagResult (equal : Bool) : Word := if equal then 1 else 0

end Sys2Proof.Machine
end

