-- ==== Sys2Proof/Machine/Compare.lean ====
section
/-! DEFINITION. The comparison (42_compare.md): CTF.EQ, the equality of numerals by magnitude. There is no other (R85). -/

namespace Sys2Proof.Machine

/-- `CTF.EQ x, y` (R81): 1 exactly when the two bytes denote the same magnitude. -/
def execEq (x y : Byte) (s : State) : Host.Outcome State Fault Refusal :=
  .next (s.answer (flagResult (meq (byteOperand x) (byteOperand y))))

end Sys2Proof.Machine
end

