-- ==== Sys2Proof/Machine/Decoder.lean ====
section
/-! DEFINITION. The decoder family (41_decoder.md): CTF.UNPACK, CTF.DECODE, CTF.PACK. Each is total and exact, and none
normalises (R71, R78). -/

namespace Sys2Proof.Machine

/-- `CTF.UNPACK b` (R72): the two fields of the byte. -/
def execUnpack (b : Byte) (s : State) : Host.Outcome State Fault Refusal :=
  .next (s.answer (fieldsResult (byteOperand b)))

/-- `CTF.DECODE b` (R74): the magnitude of the byte. -/
def execDecode (b : Byte) (s : State) : Host.Outcome State Fault Refusal :=
  .next (s.answer (magnitudeResult (mag (byteOperand b))))

/-- `CTF.PACK m, e` (R77): the byte of the two fields. -/
def execPack (m : Mantissa) (e : Exponent) (s : State) : Host.Outcome State Fault Refusal :=
  .next (s.answer (byteResult (fieldsOperand m e)))

end Sys2Proof.Machine
end

