-- ==== Sys2Proof/Machine/Encoder.lean ====
section
/-! DEFINITION. The encoder family (40_encoder.md): CTF.ZERO, CTF.SAT, CTF.FLOOR, CTF.CEIL. Each answers a packed numeral
in normal form and does nothing else (R57). -/

namespace Sys2Proof.Machine

/-- `CTF.ZERO` (R58): the byte of `ZERO`. -/
def execZero (s : State) : Host.Outcome State Fault Refusal :=
  .next (s.answer (byteResult zeroNumeral))

/-- `CTF.SAT` (R60): the byte of `SAT`. -/
def execSat (s : State) : Host.Outcome State Fault Refusal :=
  .next (s.answer (byteResult satNumeral))

/-- `CTF.FLOOR v` (R63): the byte of `floor(v)`; it saturates silently (R64). -/
def execFloor (v : Word) (s : State) : Host.Outcome State Fault Refusal :=
  .next (s.answer (byteResult (floor (magnitudeOperand v))))

/-- `CTF.CEIL v` (R67): the byte of `ceil(v)`; it saturates silently (R61). -/
def execCeil (v : Word) (s : State) : Host.Outcome State Fault Refusal :=
  .next (s.answer (byteResult (ceil (magnitudeOperand v))))

end Sys2Proof.Machine
end

