-- ==== Sys2Proof/Machine/Dispatch.lean ====
section
/-! DEFINITION. One arm per operation of the block (30_encoding.md R46). -/

namespace Sys2Proof.Machine

def exec (i : Instr) (s : State) : Host.Outcome State Fault Refusal :=
  match i with
  | .zero => Sys2Proof.Machine.execZero s
  | .sat => Sys2Proof.Machine.execSat s
  | .floor v => Sys2Proof.Machine.execFloor v s
  | .ceil v => Sys2Proof.Machine.execCeil v s
  | .unpack b => Sys2Proof.Machine.execUnpack b s
  | .decode b => Sys2Proof.Machine.execDecode b s
  | .pack m e => Sys2Proof.Machine.execPack m e s
  | .eq x y => Sys2Proof.Machine.execEq x y s

end Sys2Proof.Machine
end

