-- ==== Sys2Proof/Machine/Step.lean ====
section
/-! DEFINITION. One step is one transaction (70_reset_and_hazards.md R107). -/

namespace Sys2Proof.Machine

/-- One transaction: the host presents its next request, if it has one; the block answers the request on its
ports; the host records the transaction (R2, R109). -/
def step (s : State) : Host.Outcome State Fault Refusal :=
  collect s (exec (decodeRequest s.present.onPorts) s.present)

/-- `s` with the request whose word is the low `nbits` bits of `w` put before every pending one, so that the
next step presents and answers exactly it: loading a request is the host's act (notes/assumptions/4.md). DESIGN CHOICE
(notes/assumptions/15.md): of a number wider than 35 bits, which no host can put on the wires (R98, R110), the bits above 34 are
dropped here, while `decodeWord` refuses it: with `nbits` 40, `0x800000000` places the request of `CTF.ZERO`. -/
def State.withFetchWord (s : State) (nbits w : Nat) : State :=
  { s with pending := Request.ofWord (BitVec.ofNat 35 (w % 2 ^ nbits)) :: s.pending }

end Sys2Proof.Machine
end

