-- ==== Sys2Proof/Machine/Block.lean ====
section
/-! DEFINITION. The block as one function from requests to responses, as 30_encoding.md R47 writes it: the reference the
step of the machine is claimed to agree with. -/

namespace Sys2Proof.Machine

/-- `exec(op, a)` of R47, case by case on the number `op`, each arm reading its bits of `a` as the rule does. -/
def blockExec (op : OpSelect) (a : Word) : Word :=
  match op.toFin with
  | 0 => (pack zeroNumeral).setWidth 32
  | 1 => (pack satNumeral).setWidth 32
  | 2 => (pack (floor a.toNat)).setWidth 32
  | 3 => (pack (ceil a.toNat)).setWidth 32
  | 4 =>
    let c := unpack (a.extractLsb' 0 8)
    (c.exponent.setWidth 32 <<< 8) ||| c.mantissa.setWidth 32
  | 5 => BitVec.ofNat 32 (mag (unpack (a.extractLsb' 0 8)))
  | 6 => (pack { mantissa := a.extractLsb' 0 5, exponent := a.extractLsb' 8 3 }).setWidth 32
  | 7 => if meq (unpack (a.extractLsb' 0 8)) (unpack (a.extractLsb' 8 8)) then 1 else 0

/-- The response the block owes to a request (R110: `r = exec(op, a)`). -/
def responseOf (q : Request) : Word := blockExec q.op q.a

end Sys2Proof.Machine
end

