-- ==== Sys2Proof/Machine/Assembler.lean ====
section
/-! DEFINITION. From written lines to requests: the assembler (30_encoding.md R55), its pseudo-instructions (R56), and the
forwarding of earlier responses as operands, which the host does and not the block (95_test_vectors.md section 5).
This is the one place where something can be refused, and it lies outside the block (60_exceptions.md R98). -/

namespace Sys2Proof.Machine

/-- Why a line makes no request. -/
inductive AsmError where
  /-- Raised by `assemble`: an operand is outside the range R55 states, so it cannot be put on the wires (R98, U4). Safe. -/
  | operandOutOfRange (line : SourceOp)
  /-- Raised by `lineResponse`: `%n` names no earlier line of the listing. Safe. -/
  | noSuchLine (n : Nat)
  /-- Raised by `readLine` (Machine/Text.lean): the text is no line of R55's syntax. Safe. -/
  | notALine (text : List Char)
  deriving DecidableEq, Repr

/-- The operation of a line, its numbers put on the wires. -/
def SourceOp.instr : SourceOp → Instr
  | .zero => .zero
  | .sat => .sat
  | .floor v => .floor (BitVec.ofNat 32 v)
  | .ceil v => .ceil (BitVec.ofNat 32 v)
  | .unpack b => .unpack (BitVec.ofNat 8 b)
  | .decode b => .decode (BitVec.ofNat 8 b)
  | .pack m e => .pack (BitVec.ofNat 5 m) (BitVec.ofNat 3 e)
  | .eq x y => .eq (BitVec.ofNat 8 x) (BitVec.ofNat 8 y)

/-- The request of a line, or the refusal of an operand out of range (R55). -/
def assemble (line : SourceOp) : Except AsmError Request :=
  if line.wellFormed then .ok (encode (SourceOp.instr line)) else .error (.operandOutOfRange line)

/-- An operand as written: a number, `%n` (the whole response of line n), `%n.m` or `%n.e` (its fields
`r[4:0]` and `r[10:8]`) (R55, 95_test_vectors.md section 5). -/
inductive Operand where
  | number (n : Nat)
  | response (line : Nat)
  | mantissaOf (line : Nat)
  | exponentOf (line : Nat)
  deriving DecidableEq, Repr

/-- The response of the line labelled `%n:` among the labelled lines already answered, the latest first (R55). -/
def lineResponse (done : List (Nat × Word)) (n : Nat) : Except AsmError Word :=
  match done.lookup n with
  | some w => .ok w
  | none => .error (.noSuchLine n)

/-- The number an operand stands for, once the earlier lines are answered. The spec gives `%n.m` and `%n.e` of the response of
a `CTF.UNPACK` only (95_test_vectors.md section 5). DESIGN CHOICE (notes/assumptions/14.md): of any other line they are the same
bits `r[4:0]` and `r[10:8]` of its response, so that `.e` of a byte result, whose exponent stands at `r[7:5]` (R45), is 0. -/
def Operand.resolve (done : List (Nat × Word)) : Operand → Except AsmError Nat
  | .number n => .ok n
  | .response n => (lineResponse done n).map BitVec.toNat
  | .mantissaOf n => (lineResponse done n).map fun w => (mantissaField w).toNat
  | .exponentOf n => (lineResponse done n).map fun w => (exponentField w).toNat

/-- A line of a listing (R55, R56). -/
inductive SourceLine where
  | zero
  | sat
  | floor (v : Operand)
  | ceil (v : Operand)
  | unpack (b : Operand)
  | decode (b : Operand)
  | pack (m e : Operand)
  | eq (x y : Operand)
  /-- `CTF.DEFAULT`, the source's name of `CTF.ZERO` (R56). -/
  | default
  /-- `CTF.SATURATED`, the source's name of `CTF.SAT` (R56). -/
  | saturated
  /-- `CTF.FLOORMAG v`: `CTF.FLOOR v`, then `CTF.DECODE` of its response (R56). -/
  | floorMag (v : Operand)
  /-- `CTF.CEILMAG v`: `CTF.CEIL v`, then `CTF.DECODE` of its response (R56). -/
  | ceilMag (v : Operand)
  /-- A request word the host builds itself, junk in ignored bits allowed (95_test_vectors.md P6). -/
  | raw (q : Request)
  deriving DecidableEq, Repr

/-- The two requests of `CTF.FLOORMAG` and `CTF.CEILMAG` (R56): the rounding, then the decoding of its response. -/
def thenDecode (rounding : SourceOp) : Except AsmError (List Request) := do
  let first ← assemble rounding
  let second ← assemble (.decode (responseOf first).toNat)
  pure [first, second]

/-- The requests a line stands for, given the responses of the lines before it. -/
def SourceLine.requests (done : List (Nat × Word)) : SourceLine → Except AsmError (List Request)
  | .zero | .default => (assemble .zero).map fun q => [q]
  | .sat | .saturated => (assemble .sat).map fun q => [q]
  | .floor v => do
    let q ← assemble (.floor (← v.resolve done))
    pure [q]
  | .ceil v => do
    let q ← assemble (.ceil (← v.resolve done))
    pure [q]
  | .unpack b => do
    let q ← assemble (.unpack (← b.resolve done))
    pure [q]
  | .decode b => do
    let q ← assemble (.decode (← b.resolve done))
    pure [q]
  | .pack m e => do
    let q ← assemble (.pack (← m.resolve done) (← e.resolve done))
    pure [q]
  | .eq x y => do
    let q ← assemble (.eq (← x.resolve done) (← y.resolve done))
    pure [q]
  | .floorMag v => do thenDecode (.floor (← v.resolve done))
  | .ceilMag v => do thenDecode (.ceil (← v.resolve done))
  | .raw q => .ok [q]

/-- A line of a listing with the label `%n:` it may carry (R55) and the response `-> r` that may be written after it
(R55: in test vectors and programs; which response that is of a line of two requests, notes/assumptions/16.md). -/
structure ListingLine where
  label   : Option Nat
  line    : SourceLine
  claimed : Option Nat
  deriving DecidableEq, Repr

/-- The response a later `%n` sees of a line: that of its last request (notes/assumptions/10.md). -/
def lastResponse : List Request → Word
  | [] => 0
  | q :: rest => rest.foldl (fun _ p => responseOf p) (responseOf q)

/-- What later lines can name once a line is answered: its response under its label, if it has one. -/
def remember (done : List (Nat × Word)) (l : ListingLine) (qs : List Request) : List (Nat × Word) :=
  match l.label with
  | some n => (n, lastResponse qs) :: done
  | none => done

/-- The requests of a listing, line after line, each line seeing the responses of the labelled lines before it. -/
def assembleListing (done : List (Nat × Word)) : List ListingLine → Except AsmError (List Request)
  | [] => .ok []
  | l :: rest => do
    let qs ← l.line.requests done
    let more ← assembleListing (remember done l qs) rest
    pure (qs ++ more)

/-- The program a listing stands for: a finite list of requests (70_reset_and_hazards.md R109). -/
def program (listing : List ListingLine) : Except AsmError (List Request) := assembleListing [] listing

/-- Every response `-> r` written after a line is the one the line gets (R55). DESIGN CHOICE (notes/assumptions/16.md): of a line
of two requests (`CTF.FLOORMAG`, `CTF.CEILMAG`, R56) that is the response of the last one, the decoded magnitude; the spec does
not say which of the two is written. -/
def claimsHold (done : List (Nat × Word)) : List ListingLine → Except AsmError Bool
  | [] => .ok true
  | l :: rest => do
    let qs ← l.line.requests done
    let more ← claimsHold (remember done l qs) rest
    pure ((l.claimed.all fun r => r == (lastResponse qs).toNat) && more)

end Sys2Proof.Machine
end

