-- ==== Sys2Proof/Machine/Text.lean ====
section
/-! DEFINITION. The written form of a line (30_encoding.md R55, R56; 95_test_vectors.md section 5): reading the text of a
listing. It is notation only: nothing of it is in the block. -/

namespace Sys2Proof.Machine

/-- The words of a line: blanks separate them, a comma is a word of its own, and the text after `;` is a comment. `word`
holds the word being read, its last character first. -/
def wordsOf : List Char → List Char → List (List Char)
  | [], word => if word.isEmpty then [] else [word.reverse]
  | c :: cs, word =>
    let before := if word.isEmpty then [] else [word.reverse]
    if c = ';' then before
    else if c = ' ' || c = '\t' || c = '\r' then before ++ wordsOf cs []
    else if c = ',' then before ++ [[',']] ++ wordsOf cs []
    else wordsOf cs (c :: word)

/-- The value of a digit, decimal or hexadecimal. -/
def digitValue (c : Char) : Option Nat :=
  let n := c.toNat
  if 48 ≤ n && n ≤ 57 then some (n - 48)
  else if 65 ≤ n && n ≤ 70 then some (n - 55)
  else if 97 ≤ n && n ≤ 102 then some (n - 87)
  else none

/-- The number a run of digits spells in a base, `acc` read so far. -/
def digitsFrom (base : Nat) (acc : Nat) : List Char → Option Nat
  | [] => some acc
  | c :: cs =>
    match digitValue c with
    | some d => if d < base then digitsFrom base (acc * base + d) cs else none
    | none => none

/-- A number of at least one digit. -/
def digits (base : Nat) : List Char → Option Nat
  | [] => none
  | c :: cs => digitsFrom base 0 (c :: cs)

/-- "Numbers are decimal or `0x` hexadecimal" (R55). -/
def readNumber : List Char → Option Nat
  | '0' :: 'x' :: cs => digits 16 cs
  | cs => digits 10 cs

/-- A number, `%n`, `%n.m` or `%n.e` (R55, 95_test_vectors.md section 5). -/
def readOperand : List Char → Option Operand
  | '%' :: cs =>
    match cs.reverse with
    | 'm' :: '.' :: ds => (digits 10 ds.reverse).map .mantissaOf
    | 'e' :: '.' :: ds => (digits 10 ds.reverse).map .exponentOf
    | _ => (digits 10 cs).map .response
  | cs => (readNumber cs).map .number

/-- The label `%n:` of a line (R55). -/
def readLabel : List Char → Option Nat
  | '%' :: cs =>
    match cs.reverse with
    | ':' :: ds => digits 10 ds.reverse
    | _ => none
  | _ => none

/-- An operation without operands (R55, R56). -/
def readBare (mnemonic : List Char) : Option SourceLine :=
  if mnemonic = "CTF.ZERO".toList then some .zero
  else if mnemonic = "CTF.SAT".toList then some .sat
  else if mnemonic = "CTF.DEFAULT".toList then some .default
  else if mnemonic = "CTF.SATURATED".toList then some .saturated
  else none

/-- An operation with one operand (R55, R56). -/
def readUnary (mnemonic : List Char) (x : Operand) : Option SourceLine :=
  if mnemonic = "CTF.FLOOR".toList then some (.floor x)
  else if mnemonic = "CTF.CEIL".toList then some (.ceil x)
  else if mnemonic = "CTF.UNPACK".toList then some (.unpack x)
  else if mnemonic = "CTF.DECODE".toList then some (.decode x)
  else if mnemonic = "CTF.FLOORMAG".toList then some (.floorMag x)
  else if mnemonic = "CTF.CEILMAG".toList then some (.ceilMag x)
  else none

/-- An operation with two operands (R55). -/
def readBinary (mnemonic : List Char) (x y : Operand) : Option SourceLine :=
  if mnemonic = "CTF.PACK".toList then some (.pack x y)
  else if mnemonic = "CTF.EQ".toList then some (.eq x y)
  else none

/-- A mnemonic with its operands (R55). -/
def readOperation : List (List Char) → Option SourceLine
  | [mnemonic] => readBare mnemonic
  | [mnemonic, x] => (readOperand x).bind fun x => readUnary mnemonic x
  | [mnemonic, x, [','], y] =>
    (readOperand x).bind fun x => (readOperand y).bind fun y => readBinary mnemonic x y
  | _ => none

/-- An operation, and the response `-> r` that may follow it (R55). -/
def readClaimed (label : Option Nat) (ws : List (List Char)) : Option ListingLine :=
  match ws.reverse with
  | r :: ['-', '>'] :: front =>
    (readNumber r).bind fun r => (readOperation front.reverse).map fun l => { label := label, line := l, claimed := some r }
  | _ => (readOperation ws).map fun l => { label := label, line := l, claimed := none }

/-- A line of a listing (R55); an empty line, or one that is only a comment, stands for nothing. -/
def readLine (text : List Char) : Except AsmError (Option ListingLine) :=
  match wordsOf text [] with
  | [] => .ok none
  | first :: rest =>
    let read := match readLabel first with
      | some n => readClaimed (some n) rest
      | none => readClaimed none (first :: rest)
    match read with
    | some l => .ok (some l)
    | none => .error (.notALine text)

/-- The lines of a text, "One request per line" (R55). `line` holds the line being read, its last character first. -/
def linesOf : List Char → List Char → List (List Char)
  | [], line => [line.reverse]
  | '\n' :: cs, line => line.reverse :: linesOf cs []
  | c :: cs, line => linesOf cs (c :: line)

/-- The listing of a list of line texts. -/
def readLines : List (List Char) → Except AsmError (List ListingLine)
  | [] => .ok []
  | text :: rest => do
    let l ← readLine text
    let more ← readLines rest
    pure (l.toList ++ more)

/-- The listing a text stands for. -/
def readListing (text : String) : Except AsmError (List ListingLine) := readLines (linesOf text.toList [])

/-- The requests a text stands for (R55, R56, R109). -/
def programOfText (text : String) : Except AsmError (List Request) := do
  let listing ← readListing text
  program listing

end Sys2Proof.Machine
end

