-- ==== Sys2Proof/Safety.lean ====
section
/-! DEFINITION. What a safe run of the block is, in the terms the statements use. -/

namespace Sys2Proof.Machine

/-- The response of a completed transaction is the one `exec(op, a)` of R47 owes its request (R110). -/
def Answered (t : Transaction) : Prop := t.response = responseOf t.request

/-- The output is `exec(op, a)` of the present inputs (10_state.md R27). -/
def State.Settled (s : State) : Prop := s.r = responseOf s.onPorts

/-- The invariant of a run: `r` is settled, and every transaction recorded was answered as R47 says
(R27, R109; R108 asks the same of a wrapper). -/
structure State.Faithful (s : State) : Prop where
  settled : s.Settled
  answered : ∀ t ∈ s.transcript, Answered t

/-- A natural number is representable when some numeral has it as magnitude (00_scope.md glossary). -/
def Representable (v : Nat) : Prop := ∃ c : Numeral, mag c = v

/-- The bits of `r` an operation's result format may use (30_encoding.md R45); the rest are always 0 (R53). -/
def resultMask (op : OpSelect) : Word :=
  match op.toFin with
  | 0 => 0x000000FF
  | 1 => 0x000000FF
  | 2 => 0x000000FF
  | 3 => 0x000000FF
  | 4 => 0x0000071F
  | 5 => 0x0007FFFF
  | 6 => 0x000000FF
  | 7 => 0x00000001

end Sys2Proof.Machine
end

