-- ==== Sys2Proof/Certificates/Slice0/Obligations.lean ====
section
/-! DEFINITION. The statements for the provers, each from the spec's numbered rules. -/

open Sys2Proof Sys2Proof.Machine

/-! ### Requests, words and decoding -/

/-- Words written out bit by bit from the patterns of 30_encoding.md R44 and R46, junk in some ignored bits (`op`, then the
bytes of `a` high to low), decode to the operations they stand for. A sanity statement. -/
def Obligations.WrittenWordsDecode : Prop :=
  decodeRequest (Request.ofWord 0b000_10101010_00000000_11111111_00000001#35) = .zero ∧
  decodeRequest (Request.ofWord 0b001_00000000_00000000_00000000_10101010#35) = .sat ∧
  decodeRequest (Request.ofWord 0b010_00000000_00000000_00000011_11111111#35) = .floor 1023 ∧
  decodeRequest (Request.ofWord 0b011_00000000_00000000_00000011_11111111#35) = .ceil 1023 ∧
  decodeRequest (Request.ofWord 0b100_10101011_11001101_11101111_01110000#35) = .unpack 0x70 ∧
  decodeRequest (Request.ofWord 0b101_11111111_11111111_11111111_01101111#35) = .decode 0x6F ∧
  decodeRequest (Request.ofWord 0b110_11111111_11111111_11111011_11110000#35) = .pack 16 3 ∧
  decodeRequest (Request.ofWord 0b111_00000000_00000000_01000100_00110000#35) = .eq 0x30 0x44

/-- R43: the request word holds `op` above the 32 bits of `a`, and is the same request read back. -/
def Obligations.RequestWordLayout : Prop :=
  (∀ q : Request, q.word.toNat = q.op.toNat * 2 ^ 32 + q.a.toNat ∧ Request.ofWord q.word = q) ∧
  ∀ w : RequestWord, (Request.ofWord w).word = w

/-- R48: masked with `0x7_0000_0000`, a request word has an operation's match value exactly when it decodes to that
operation, whatever the bits of `a`. -/
def Obligations.OperationRecognisedFromMatchAndMask : Prop :=
  ∀ q : Request,
    (q.word &&& 0x700000000 = 0x000000000 ↔ decodeRequest q = .zero) ∧
    (q.word &&& 0x700000000 = 0x100000000 ↔ decodeRequest q = .sat) ∧
    (q.word &&& 0x700000000 = 0x200000000 ↔ ∃ v, decodeRequest q = .floor v) ∧
    (q.word &&& 0x700000000 = 0x300000000 ↔ ∃ v, decodeRequest q = .ceil v) ∧
    (q.word &&& 0x700000000 = 0x400000000 ↔ ∃ b, decodeRequest q = .unpack b) ∧
    (q.word &&& 0x700000000 = 0x500000000 ↔ ∃ b, decodeRequest q = .decode b) ∧
    (q.word &&& 0x700000000 = 0x600000000 ↔ ∃ m e, decodeRequest q = .pack m e) ∧
    (q.word &&& 0x700000000 = 0x700000000 ↔ ∃ x y, decodeRequest q = .eq x y) ∧
    q.word &&& matchMask = matchOf (decodeRequest q)

/-- Decoding the encoding of an operation gives it back, for every operation and every operand, as a request and as the
number of its request word (R43, R46, R55). -/
def Obligations.DecodeEncodeRoundTrip : Prop :=
  ∀ i : Instr, decodeRequest (encode i) = i ∧ decodeWord (encode i).word.toNat = .ok i

/-- Encoding what was decoded gives the request back with 0 in every bit its operation ignores (R51, R55): no bit an
operation reads is dropped, and none it ignores is kept. -/
def Obligations.EncodeDecodeClearsIgnoredBits : Prop :=
  ∀ q : Request, encode (decodeRequest q) = { op := q.op, a := q.a &&& readMask q.op }

/-- R51: two operand words that agree on every bit the operation's format reads (R44) decode to the same operation, and get
the same response. -/
def Obligations.IgnoredOperandBitsDoNotMatter : Prop :=
  ∀ (op : OpSelect) (a a' : Word), a &&& readMask op = a' &&& readMask op →
    blockExec op a = blockExec op a' ∧ decodeRequest { op := op, a := a } = decodeRequest { op := op, a := a' } ∧
    ∀ s, exec (decodeRequest { op := op, a := a }) s = exec (decodeRequest { op := op, a := a' }) s

/-! ### The operations: encoding, response, completion -/

/-- R58, R59: every request with `op` = 0 is `CTF.ZERO`, whatever `a`; it answers the word 0, which is also the
answer of `CTF.FLOOR 0` and of `CTF.CEIL 0`. -/
def Obligations.ZeroAnswersZeroByte : Prop :=
  ∀ (a : Word) (s : State),
    decodeRequest { op := 0, a := a } = .zero ∧
    exec .zero s = .next { s with r := 0x00000000 } ∧
    floor 0 = { mantissa := 0, exponent := 0 } ∧ ceil 0 = { mantissa := 0, exponent := 0 } ∧
    exec (.floor 0) s = exec .zero s ∧ exec (.ceil 0) s = exec .zero s

/-- R60: every request with `op` = 1 is `CTF.SAT`, whatever `a`; it answers the byte of the numeral (31, 7),
of magnitude 507,904. -/
def Obligations.SatAnswersMaximumByte : Prop :=
  ∀ (a : Word) (s : State),
    decodeRequest { op := 1, a := a } = .sat ∧
    exec .sat s = .next { s with r := 0x000000FF } ∧
    unpack 0xFF = { mantissa := 31, exponent := 7 } ∧ mag (unpack 0xFF) = 507904

/-- R63: `CTF.FLOOR` reads all of `a`, and answers the packed byte of `floor` of its number: the byte `e * 32 + m`, zero-filled. -/
def Obligations.FloorAnswersPackedFloor : Prop :=
  ∀ (a : Word) (s : State),
    decodeRequest { op := 2, a := a } = .floor a ∧
    exec (.floor a) s = .next { s with
      r := BitVec.ofNat 32 ((floor a.toNat).exponent.toNat * 32 + (floor a.toNat).mantissa.toNat) }

/-- R67: `CTF.CEIL` reads all of `a`, and answers the packed byte of `ceil` of its number: the byte `e * 32 + m`, zero-filled. -/
def Obligations.CeilAnswersPackedCeil : Prop :=
  ∀ (a : Word) (s : State),
    decodeRequest { op := 3, a := a } = .ceil a ∧
    exec (.ceil a) s = .next { s with
      r := BitVec.ofNat 32 ((ceil a.toNat).exponent.toNat * 32 + (ceil a.toNat).mantissa.toNat) }

/-- R72: `CTF.UNPACK` reads the low byte of `a`, and answers its mantissa (the byte modulo 32) in `r[4:0]` and its exponent
(the byte divided by 32) in `r[10:8]`. -/
def Obligations.UnpackAnswersFields : Prop :=
  (∀ a : Word, decodeRequest { op := 4, a := a } = .unpack (BitVec.ofNat 8 a.toNat)) ∧
  ∀ (b : Byte) (s : State),
    exec (.unpack b) s = .next { s with r := BitVec.ofNat 32 (b.toNat / 32 * 256 + b.toNat % 32) }

/-- R74: `CTF.DECODE` reads the low byte of `a`, and answers its mantissa times 4 to its exponent, which never exceeds
507,904. -/
def Obligations.DecodeAnswersMagnitude : Prop :=
  (∀ a : Word, decodeRequest { op := 5, a := a } = .decode (BitVec.ofNat 8 a.toNat)) ∧
  ∀ (b : Byte) (s : State),
    exec (.decode b) s = .next { s with r := BitVec.ofNat 32 (b.toNat % 32 * 4 ^ (b.toNat / 32)) } ∧
    b.toNat % 32 * 4 ^ (b.toNat / 32) ≤ 507904

/-- R77: `CTF.PACK` reads `a[4:0]` and `a[10:8]`, and answers the byte `e * 32 + m`. -/
def Obligations.PackAnswersByte : Prop :=
  (∀ a : Word,
    decodeRequest { op := 6, a := a } = .pack (BitVec.ofNat 5 a.toNat) (BitVec.ofNat 3 (a.toNat / 256))) ∧
  ∀ (m : Mantissa) (e : Exponent) (s : State),
    exec (.pack m e) s = .next { s with r := BitVec.ofNat 32 (e.toNat * 32 + m.toNat) }

/-- R81: `CTF.EQ` reads the two low bytes of `a`, and answers 1 when mantissa times 4 to the exponent is the same of both,
0 when not; swapping the two bytes never changes the answer. -/
def Obligations.EqAnswersMagnitudeEquality : Prop :=
  (∀ a : Word,
    decodeRequest { op := 7, a := a } = .eq (BitVec.ofNat 8 a.toNat) (BitVec.ofNat 8 (a.toNat / 256))) ∧
  ∀ (x y : Byte) (s : State),
    exec (.eq x y) s = .next { s with
      r := if x.toNat % 32 * 4 ^ (x.toNat / 32) = y.toNat % 32 * 4 ^ (y.toNat / 32) then 1 else 0 } ∧
    exec (.eq y x) s = exec (.eq x y) s

/-- R78: `CTF.UNPACK` and `CTF.PACK` move bits and nothing else: `b[4:0]` to `r[4:0]` and `b[7:5]` to `r[10:8]`; the
mantissa to `r[4:0]` and the exponent to `r[7:5]`; every other bit of `r` is 0. -/
def Obligations.UnpackAndPackMoveBits : Prop :=
  (∀ (b : Byte) (s : State), ∃ t, exec (.unpack b) s = .next t ∧ ∀ i,
    t.r.getLsbD i = if i < 5 then b.getLsbD i else if 8 ≤ i ∧ i < 11 then b.getLsbD (i - 3) else false) ∧
  ∀ (m : Mantissa) (e : Exponent) (s : State), ∃ t, exec (.pack m e) s = .next t ∧ ∀ i,
    t.r.getLsbD i = if i < 5 then m.getLsbD i else if i < 8 then e.getLsbD (i - 5) else false

/-- R75: the response of `CTF.DECODE` is the mantissa placed at bit `2 * e`, with zeros elsewhere. -/
def Obligations.DecodePlacesMantissaAtTwiceExponent : Prop :=
  ∀ (b : Byte) (s : State), ∃ t, exec (.decode b) s = .next t ∧ ∀ i,
    t.r.getLsbD i =
      if 2 * (b.toNat / 32) ≤ i ∧ i < 2 * (b.toNat / 32) + 5 then b.getLsbD (i - 2 * (b.toNat / 32)) else false

/-- R53 (with the table of R45): the response of every request is 0 in every bit its result format does not list; in numbers,
at most 255 for a byte result, at most 507,904 for a magnitude, at most 1 for a flag. -/
def Obligations.UnlistedResponseBitsAreZero : Prop :=
  ∀ (q : Request) (s : State), ∃ t, exec (decodeRequest q) s = .next t ∧ t.r &&& ~~~(resultMask q.op) = 0 ∧
    (q.op = 0 ∨ q.op = 1 ∨ q.op = 2 ∨ q.op = 3 ∨ q.op = 6 → t.r.toNat ≤ 255) ∧
    (q.op = 5 → t.r.toNat ≤ 507904) ∧ (q.op = 7 → t.r.toNat ≤ 1)

/-! ### Numerals -/

/-- R42: `pack` and `unpack` are inverse, bit for bit, in both directions. -/
def Obligations.PackAndUnpackAreInverse : Prop :=
  (∀ c : Numeral, biteq (unpack (pack c)) c = true ∧ unpack (pack c) = c) ∧ ∀ b : Byte, pack (unpack b) = b

/-- R17: the magnitude is the mantissa shifted left by twice the exponent; it is at most 507,904 and fits in 19 bits. R19:
`SAT` is (31, 7), of byte 0xFF, and no other numeral has a magnitude as large. -/
def Obligations.MagnitudeRangeAndMaximum : Prop :=
  (∀ c : Numeral, mag c = c.mantissa.toNat <<< (2 * c.exponent.toNat) ∧ mag c ≤ 507904 ∧ mag c < 2 ^ 19 ∧
    (mag c = 507904 ↔ c = satNumeral)) ∧
  satNumeral = { mantissa := 31, exponent := 7 } ∧ pack satNumeral = 0xFF

/-- R22: bit equality is equality of both fields, that is of the packed bytes; it implies magnitude equality, and the converse
fails. -/
def Obligations.BitEqualityIsByteEquality : Prop :=
  (∀ c d : Numeral, (biteq c d = true ↔ c.mantissa = d.mantissa ∧ c.exponent = d.exponent) ∧
    (biteq c d = true ↔ pack c = pack d) ∧ (biteq c d = true → meq c d = true)) ∧
  ∃ c d : Numeral, meq c d = true ∧ biteq c d = false

/-- R23. Two numerals of exponents `e > e'` have equal magnitudes exactly when `m' = m * 4^(e - e')` or both mantissas are 0.
A numeral with `e >= 1` and `m <= 7` has the alias (4 m, e - 1); the numerals of magnitude 0 are those of mantissa 0; each of
`16 * 4^k`, `k` from 0 to 5, has exactly the three numerals (16, k), (4, k + 1), (1, k + 2); and of the magnitudes of the 256
bytes, 156 occur once, 37 twice, 6 three times and one, 0, eight times. -/
def Obligations.AliasesCharacterised : Prop :=
  (∀ c d : Numeral, d.exponent.toNat < c.exponent.toNat →
    (mag c = mag d ↔
      d.mantissa.toNat = c.mantissa.toNat * 4 ^ (c.exponent.toNat - d.exponent.toNat) ∨
      (c.mantissa = 0 ∧ d.mantissa = 0))) ∧
  (∀ c : Numeral, 1 ≤ c.exponent.toNat → c.mantissa.toNat ≤ 7 →
    mag { mantissa := 4 * c.mantissa, exponent := c.exponent - 1 } = mag c) ∧
  (∀ c : Numeral, mag c = 0 ↔ c.mantissa = 0) ∧
  (∀ (k : Nat) (c : Numeral), k ≤ 5 → (mag c = 16 * 4 ^ k ↔
    c = { mantissa := 16, exponent := BitVec.ofNat 3 k } ∨
    c = { mantissa := 4, exponent := BitVec.ofNat 3 (k + 1) } ∨
    c = { mantissa := 1, exponent := BitVec.ofNat 3 (k + 2) })) ∧
  let magnitudes := (List.range 256).map fun n => mag (unpack (BitVec.ofNat 8 n))
  (magnitudes.dedup.filter fun v => magnitudes.count v = 1).length = 156 ∧
  (magnitudes.dedup.filter fun v => magnitudes.count v = 2).length = 37 ∧
  (magnitudes.dedup.filter fun v => magnitudes.count v = 3).length = 6 ∧
  magnitudes.dedup.filter (fun v => 4 ≤ magnitudes.count v) = [0] ∧ magnitudes.count 0 = 8

/-- R24. There are exactly 200 representable magnitudes: the values 0 to 31, and `m * 4^e` for `e` from 1 to 7 and `m` from 8
to 31. In increasing order they are those of the normal-form numerals in the order of their bytes; and from the magnitude of a
normal-form numeral of exponent `e`, below the largest, the gap to the next representable one is `4^e`. -/
def Obligations.RepresentableMagnitudes : Prop :=
  (∃ l : List Nat, l.length = 200 ∧ l.Nodup ∧ ∀ v, v ∈ l ↔ Representable v) ∧
  (∀ v, Representable v ↔ v < 32 ∨ ∃ m e, 8 ≤ m ∧ m ≤ 31 ∧ 1 ≤ e ∧ e ≤ 7 ∧ v = m * 4 ^ e) ∧
  (∀ v, Representable v ↔ ∃ c, isNormal c = true ∧ mag c = v) ∧
  (∀ c d : Numeral, isNormal c = true → isNormal d = true → ((pack c).toNat < (pack d).toNat ↔ mag c < mag d)) ∧
  ∀ c : Numeral, isNormal c = true → c ≠ satNumeral →
    Representable (mag c + 4 ^ c.exponent.toNat) ∧
    ∀ v, mag c < v → v < mag c + 4 ^ c.exponent.toNat → ¬ Representable v

/-- R25. A numeral is in normal form when its exponent is 0 or its mantissa is at least 8; every magnitude has exactly one
such numeral; and the numerals `floor` answers, like those `ceil` answers, are exactly the ones in normal form. -/
def Obligations.NormalFormIsUnique : Prop :=
  (∀ c : Numeral, isNormal c = true ↔ c.exponent = 0 ∨ 8 ≤ c.mantissa.toNat) ∧
  (∀ c : Numeral, ∃ d, isNormal d = true ∧ mag d = mag c ∧ ∀ d', isNormal d' = true → mag d' = mag c → d' = d) ∧
  ∀ c : Numeral, ((∃ v, floor v = c) ↔ isNormal c = true) ∧ ((∃ v, ceil v = c) ↔ isNormal c = true)

/-! ### The encoder, over all natural numbers -/

/-- R62: below 32 `floor` is the value at exponent 0; from 32 on it is that of a quarter of the value, one exponent up, or
`SAT` where that exponent was 7 already; and its magnitude is the greatest representable one not above the value. -/
def Obligations.FloorIsGreatestNotAbove : Prop :=
  (∀ v, v < 32 → floor v = { mantissa := BitVec.ofNat 5 v, exponent := 0 }) ∧
  (∀ v, 32 ≤ v → floor v =
    if (floor (v / 4)).exponent.toNat = 7 then { mantissa := 31, exponent := 7 }
    else { floor (v / 4) with exponent := (floor (v / 4)).exponent + 1 }) ∧
  ∀ v, mag (floor v) ≤ v ∧ ∀ c : Numeral, mag c ≤ v → mag c ≤ mag (floor v)

/-- R64 (and the thresholds of R61): `floor` is `SAT`, bit for bit, for every value from 507,904 on and no other; `ceil` for
every value above 491,520 and no other; at the port such requests are answered as `CTF.SAT` is. -/
def Obligations.OverflowSaturates : Prop :=
  (∀ v : Nat, (floor v = satNumeral ↔ 507904 ≤ v) ∧ (ceil v = satNumeral ↔ 491520 < v)) ∧
  ∀ (v : Word) (s : State),
    (507904 ≤ v.toNat → exec (.floor v) s = exec .sat s) ∧ (491520 < v.toNat → exec (.ceil v) s = exec .sat s)

/-- R65, first its closed form: `SAT` from 524,288 on, the value itself below 32, else the value shifted right by `2 * E` at
exponent `E = (msb(v) - 3) >> 1`; then the row of its table each exponent has; then its error bounds. -/
def Obligations.FloorClosedForm : Prop :=
  (∀ v, floor v =
    if 524288 ≤ v then satNumeral
    else if v < 32 then { mantissa := BitVec.ofNat 5 v, exponent := 0 }
    else { mantissa := BitVec.ofNat 5 (v >>> (2 * ((Nat.log2 v - 3) >>> 1))),
           exponent := BitVec.ofNat 3 ((Nat.log2 v - 3) >>> 1) }) ∧
  (∀ v, v < 524288 → 32 ≤ v →
    8 * 4 ^ (floor v).exponent.toNat ≤ v ∧ v < 32 * 4 ^ (floor v).exponent.toNat ∧
    (floor v).mantissa.toNat = v / 4 ^ (floor v).exponent.toNat ∧ 8 ≤ (floor v).mantissa.toNat) ∧
  (∀ v, v ≤ 524287 → mag (floor v) ≤ v ∧ v - mag (floor v) ≤ 4 ^ (floor v).exponent.toNat - 1) ∧
  ∀ v, 32 ≤ v → v ≤ 524287 → 8 * (v - mag (floor v)) < mag (floor v)

/-- R66: the arms of `ceil` by what `floor` answered, in the order they are tested; up to 507,904 the magnitude of `ceil` is
the least representable one not below the value, and above it no representable one exists and `ceil` is `SAT`. -/
def Obligations.CeilIsLeastNotBelow : Prop :=
  (∀ v, (meq (floor v) satNumeral = true → ceil v = floor v) ∧ (mag (floor v) = v → ceil v = floor v) ∧
    (mag (floor v) ≠ v → (floor v).mantissa.toNat < 31 →
      ceil v = { mantissa := (floor v).mantissa + 1, exponent := (floor v).exponent }) ∧
    (mag (floor v) ≠ v → (floor v).mantissa.toNat = 31 → (floor v).exponent.toNat < 7 →
      ceil v = { mantissa := 8, exponent := (floor v).exponent + 1 })) ∧
  (∀ v, v ≤ 507904 → v ≤ mag (ceil v) ∧ ∀ c : Numeral, v ≤ mag c → mag (ceil v) ≤ mag c) ∧
  ∀ v, 507904 < v → ceil v = satNumeral ∧ ¬ ∃ c : Numeral, v ≤ mag c

/-- R68: `ceil` carries exactly for the values between `31 * 4^e` and `32 * 4^e` with `e` from 1 to 6, to the numeral
(8, e + 1) of magnitude `32 * 4^e`; and its last arm, mantissa 31 and exponent 7 past the first test, is never reached. -/
def Obligations.CeilCarryAndDeadArm : Prop :=
  (∀ v, (meq (floor v) satNumeral = false ∧ mag (floor v) ≠ v ∧ (floor v).mantissa.toNat = 31) ↔
    ∃ e, 1 ≤ e ∧ e ≤ 6 ∧ 31 * 4 ^ e < v ∧ v < 32 * 4 ^ e) ∧
  (∀ v e, 1 ≤ e → e ≤ 6 → 31 * 4 ^ e < v → v < 32 * 4 ^ e →
    floor v = { mantissa := 31, exponent := BitVec.ofNat 3 e } ∧
    ceil v = { mantissa := 8, exponent := BitVec.ofNat 3 (e + 1) } ∧ mag (ceil v) = 32 * 4 ^ e) ∧
  ¬ ∃ v, meq (floor v) satNumeral = false ∧ mag (floor v) ≠ v ∧ (floor v).mantissa.toNat = 31 ∧
    (floor v).exponent.toNat = 7

/-- R69, laws L1, L3 and L13: below 32 both roundings are exact; a representable value has one encoding, bit for bit; and the
two roundings agree exactly on representable values and from 507,904 on. -/
def Obligations.ExactValuesRoundAlike : Prop :=
  (∀ v, v < 32 → mag (floor v) = v ∧ mag (ceil v) = v) ∧
  (∀ v, Representable v → biteq (floor v) (ceil v) = true) ∧
  ∀ v, biteq (floor v) (ceil v) = true ↔ Representable v ∨ 507904 ≤ v

/-- R69, law L4: a greater value never encodes to a smaller magnitude, in either direction of rounding. -/
def Obligations.RoundingIsMonotone : Prop :=
  ∀ v w : Nat, v ≤ w → mag (floor v) ≤ mag (floor w) ∧ mag (ceil v) ≤ mag (ceil w)

/-- R69, laws L9 and L10: encoding a decoded magnitude gives the normal form of the same magnitude, in both directions of
rounding, which is the numeral itself exactly when it was in normal form; re-encoding a decoded result changes nothing. -/
def Obligations.ReencodingNormalises : Prop :=
  (∀ c : Numeral, floor (mag c) = ceil (mag c) ∧ isNormal (floor (mag c)) = true ∧
    meq (floor (mag c)) c = true ∧ (floor (mag c) = c ↔ isNormal c = true)) ∧
  ∀ v, floor (mag (floor v)) = floor v ∧ ceil (mag (ceil v)) = ceil v

/-- R69, laws L11 and L12: between the two roundings of a value that is not representable lies one unit `4^E`; and `ceil` is
`SAT` above 507,904, and otherwise `floor` of the value plus `4^E - 1`, `E` the exponent of its floor. -/
def Obligations.RoundingGapAndCeilClosedForm : Prop :=
  (∀ v, v ≤ 507904 → ¬ Representable v →
    mag (ceil v) = mag (floor v) + 4 ^ (floor v).exponent.toNat) ∧
  ∀ v, ceil v = if 507904 < v then satNumeral else floor (v + 4 ^ (floor v).exponent.toNat - 1)

/-! ### The block: one function, no state, no fault -/

/-- R47: the meaning of whatever operation a request decodes to answers the word `exec(op, a)` of the block's one function,
in every state. -/
def Obligations.MeaningsAgreeWithBlockFunction : Prop :=
  ∀ (q : Request) (s : State), exec (decodeRequest q) s = .next { s with r := blockExec q.op q.a }

/-- R79: the four round trips between `CTF.PACK` (6), `CTF.UNPACK` (4) and `CTF.DECODE` (5), a response given unchanged as the
next operand. -/
def Obligations.PackUnpackRequestRoundTrips : Prop :=
  (∀ b : Byte, blockExec 6 (blockExec 4 (b.setWidth 32)) = b.setWidth 32) ∧
  (∀ m e : Nat, m ≤ 31 → e ≤ 7 →
    blockExec 4 (blockExec 6 (BitVec.ofNat 32 (e * 256 + m))) = BitVec.ofNat 32 (e * 256 + m) ∧
    blockExec 5 (blockExec 6 (BitVec.ofNat 32 (e * 256 + m))) = BitVec.ofNat 32 (m * 4 ^ e)) ∧
  ∀ b : Byte, blockExec 5 (b.setWidth 32) =
    ((blockExec 4 (b.setWidth 32)).extractLsb' 0 5).setWidth 32 <<<
      (2 * ((blockExec 4 (b.setWidth 32)).extractLsb' 8 3).toNat)

/-- R80: decoding an encoded value gives the magnitude of its rounding, not above (`CTF.FLOOR`, 2) or not below
(`CTF.CEIL`, 3, up to 507,904; 507,904 beyond) the value; encoding a decoded byte gives the normal-form byte of the same
magnitude, which `CTF.EQ` (7) finds equal. -/
def Obligations.EncodeDecodeRequestRoundTrips : Prop :=
  (∀ v : Word, (blockExec 5 (blockExec 2 v)).toNat = mag (floor v.toNat) ∧ mag (floor v.toNat) ≤ v.toNat ∧
    (blockExec 5 (blockExec 3 v)).toNat = mag (ceil v.toNat) ∧
    (v.toNat ≤ 507904 → v.toNat ≤ (blockExec 5 (blockExec 3 v)).toNat) ∧
    (507904 < v.toNat → (blockExec 5 (blockExec 3 v)).toNat = 507904)) ∧
  (∀ v : Word, (blockExec 5 (blockExec 2 v) = v ↔ Representable v.toNat)) ∧
  ∀ b : Byte, blockExec 2 (blockExec 5 (b.setWidth 32)) = blockExec 3 (blockExec 5 (b.setWidth 32)) ∧
    (∃ c, isNormal c = true ∧ mag c = mag (unpack b) ∧
      blockExec 2 (blockExec 5 (b.setWidth 32)) = (pack c).setWidth 32) ∧
    blockExec 7 ((blockExec 2 (blockExec 5 (b.setWidth 32)) <<< 8) ||| b.setWidth 32) = 1

/-- R76: two bytes get the same response from `CTF.DECODE` exactly when they have the same magnitude; and `CTF.FLOOR` of the
response gives the byte itself back exactly when it is in normal form. -/
def Obligations.DecodeIsInjectiveOnNormalForms : Prop :=
  (∀ b c : Byte, blockExec 5 (b.setWidth 32) = blockExec 5 (c.setWidth 32) ↔ meq (unpack b) (unpack c) = true) ∧
  (∀ b : Byte, blockExec 2 (blockExec 5 (b.setWidth 32)) = b.setWidth 32 ↔ isNormal (unpack b) = true) ∧
  ∃ b c : Byte, b ≠ c ∧ blockExec 5 (b.setWidth 32) = blockExec 5 (c.setWidth 32)

/-- R83: the laws of `CTF.EQ`, with `EQ(x, y)` for `exec(7, (y << 8) | x)`. -/
def Obligations.EqLaws : Prop :=
  let EQ : Byte → Byte → Word := fun x y => blockExec 7 ((y.setWidth 32 <<< 8) ||| x.setWidth 32)
  (∀ x, EQ x x = 1) ∧ (∀ x y, EQ x y = EQ y x) ∧ (∀ x y z, EQ x y = 1 → EQ y z = 1 → EQ x z = 1) ∧
  (∀ x y, EQ x y = 1 ↔ blockExec 5 (x.setWidth 32) = blockExec 5 (y.setWidth 32)) ∧
  (∀ x y, x = y → EQ x y = 1) ∧
  (∀ x y, EQ x y = 1 ↔
    blockExec 2 (blockExec 5 (x.setWidth 32)) = blockExec 2 (blockExec 5 (y.setWidth 32))) ∧
  ∃ x y, x ≠ y ∧ EQ x y = 1

/-- R86: no operation and no step faults, traps or is refused, in any state: each answers a next state. -/
def Obligations.NothingFaults : Prop :=
  (∀ (i : Instr) (s : State), ∃ t, exec i s = .next t) ∧ (∀ s : State, ∃ t, step s = .next t) ∧ ∀ _f : Fault, False

/-- The frame of every operation (ZERO, SAT, FLOOR, CEIL, UNPACK, DECODE, PACK, EQ): it changes nothing but the response
port `r`; the input ports and the host's two lists stay (R33, R57, R71, R81). There is no other state, and no memory (R13, R28). -/
def Obligations.OperationsChangeOnlyResponse : Prop :=
  ∀ (i : Instr) (s t : State), exec i s = .next t →
    t.op = s.op ∧ t.a = s.a ∧ t.pending = s.pending ∧ t.transcript = s.transcript

/-- A step runs the decoded operation: with a request pending, `step` is `exec` of its operation at the state with the request
on the ports and off the list, the transaction then recorded; with none, `exec` of the operation still on the ports (the
model's own choice for a request merely held, notes/assumptions/6.md). -/
def Obligations.StepRunsDecodedOperation : Prop :=
  (∀ (s t : State) (q : Request) (rest : List Request), s.pending = q :: rest →
    exec (decodeRequest q) { s with op := q.op, a := q.a, pending := rest } = .next t →
    step s = .next { t with transcript := t.transcript ++ [{ request := { op := t.op, a := t.a }, response := t.r }] }) ∧
  ∀ s : State, s.pending = [] → step s = exec (decodeRequest { op := s.op, a := s.a }) s

/-- One step completes one transaction: it takes the first pending request, puts it on the ports, answers it with `exec(op, a)`
and records it, and touches nothing else (R2, R109; the two lists are the model's own form of a run, notes/assumptions/1.md); with
none pending, only `r` is driven anew (the model's own choice, notes/assumptions/6.md, with the value R27 gives). -/
def Obligations.StepCompletesOneTransaction : Prop :=
  (∀ (s : State) (q : Request) (rest : List Request), s.pending = q :: rest →
    step s = .next { op := q.op, a := q.a, r := blockExec q.op q.a, pending := rest,
                     transcript := s.transcript ++ [{ request := q, response := blockExec q.op q.a }] }) ∧
  ∀ s : State, s.pending = [] → step s = .next { s with r := blockExec s.op s.a }

/-- R13: two states that have nothing in common but their next request give it the same response. -/
def Obligations.ResponseIsFunctionOfRequest : Prop :=
  ∀ (s s' : State) (q : Request) (rest rest' : List Request), s.pending = q :: rest → s'.pending = q :: rest' →
    ∃ t t', step s = .next t ∧ step s' = .next t' ∧ t.r = t'.r ∧ t.r = blockExec q.op q.a

/-- The invariant of a run: if `r` is settled (R27) and every recorded transaction was answered as R47 says, so it is
after every step, from every state. The record itself is the model's own form of a run (notes/assumptions/1.md). -/
def Obligations.StepKeepsRunFaithful : Prop :=
  ∀ s t : State, s.Faithful → step s = .next t → t.Faithful

/-- The model's start is faithful: `r` is `exec(op, a)` of the inputs (R27). The inputs being 0 there is the model's choice
(notes/assumptions/2.md), and so is that its two lists are empty, no request pending and no transaction recorded
(notes/assumptions/4.md). -/
def Obligations.ResetIsFaithful : Prop :=
  State.reset.Faithful ∧ State.reset.r = blockExec State.reset.op State.reset.a ∧ State.reset.transcript = [] ∧
    State.reset.pending = []

/-- R109: from every state, as many steps as there are pending requests present them all; the run ends with no request left
and the list of responses, in order, each `exec` of its request (as R108 asks of the k-th response of a wrapper). That a run stands
in the two lists of State is the model's own form (notes/assumptions/1.md). -/
def Obligations.RunAnswersEveryPendingRequest : Prop :=
  ∀ s : State, ∃ t, Sys2Proof.core.run s.pending.length s = .next t ∧ t.pending = [] ∧
    t.transcript = s.transcript ++ s.pending.map fun q => { request := q, response := blockExec q.op q.a }

/-- R36: presenting the same requests in another order, from any two states, yields the same transactions in another order:
each request has the same response. That a run stands in the two lists of State is the model's own form (notes/assumptions/1.md). -/
def Obligations.OrderOfRequestsDoesNotMatter : Prop :=
  ∀ s s' : State, s.pending.Perm s'.pending → s.transcript = [] → s'.transcript = [] →
    ∃ t t', Sys2Proof.core.run s.pending.length s = .next t ∧ Sys2Proof.core.run s'.pending.length s' = .next t' ∧
      t.transcript.Perm t'.transcript

/-! ### The assembler -/

/-- R55: the request the assembler makes of each line whose operands are in the stated ranges, with 0 in every bit the
operation ignores; a line with an operand out of range is refused by name. -/
def Obligations.AssemblerFollowsSyntax : Prop :=
  assemble .zero = .ok { op := 0, a := 0 } ∧
  assemble .sat = .ok { op := 1, a := 0 } ∧
  (∀ v, assemble (.floor v) =
    if v < 2 ^ 32 then .ok { op := 2, a := BitVec.ofNat 32 v } else .error (.operandOutOfRange (.floor v))) ∧
  (∀ v, assemble (.ceil v) =
    if v < 2 ^ 32 then .ok { op := 3, a := BitVec.ofNat 32 v } else .error (.operandOutOfRange (.ceil v))) ∧
  (∀ b, assemble (.unpack b) =
    if b ≤ 255 then .ok { op := 4, a := BitVec.ofNat 32 b } else .error (.operandOutOfRange (.unpack b))) ∧
  (∀ b, assemble (.decode b) =
    if b ≤ 255 then .ok { op := 5, a := BitVec.ofNat 32 b } else .error (.operandOutOfRange (.decode b))) ∧
  (∀ m e, assemble (.pack m e) =
    if m ≤ 31 ∧ e ≤ 7 then .ok { op := 6, a := BitVec.ofNat 32 (e * 256 + m) }
    else .error (.operandOutOfRange (.pack m e))) ∧
  ∀ x y, assemble (.eq x y) =
    if x ≤ 255 ∧ y ≤ 255 then .ok { op := 7, a := BitVec.ofNat 32 (y * 256 + x) }
    else .error (.operandOutOfRange (.eq x y))

/-- R56: `CTF.DEFAULT` and `CTF.SATURATED` are other names of `CTF.ZERO` and `CTF.SAT`; `CTF.FLOORMAG v` and `CTF.CEILMAG v`
are two requests, the second decoding the response of the first, whose response is the magnitude of the rounding. -/
def Obligations.PseudoInstructionsExpand : Prop :=
  ∀ (done : List (Nat × Word)) (v : Word),
    SourceLine.requests done .default = .ok [{ op := 0, a := 0 }] ∧
    SourceLine.requests done .saturated = .ok [{ op := 1, a := 0 }] ∧
    SourceLine.requests done (.floorMag (.number v.toNat)) =
      .ok [{ op := 2, a := v }, { op := 5, a := blockExec 2 v }] ∧
    (blockExec 5 (blockExec 2 v)).toNat = mag (floor v.toNat) ∧
    SourceLine.requests done (.ceilMag (.number v.toNat)) =
      .ok [{ op := 3, a := v }, { op := 5, a := blockExec 3 v }] ∧
    (blockExec 5 (blockExec 3 v)).toNat = mag (ceil v.toNat)
end

