-- ==== Sys2Proof/Laws/Decode.lean ====
section
/-! SUPPORT. What decoding reads, said once: the operation of each code, the operand fields as remainders and quotients, and
that no operation of the block is ill-formed. -/

namespace Sys2Proof

variable (a : Word)

theorem decodeRequest_zero : decodeRequest { op := 0, a := a } = .zero := rfl
theorem decodeRequest_sat : decodeRequest { op := 1, a := a } = .sat := rfl
theorem decodeRequest_floor : decodeRequest { op := 2, a := a } = .floor a := rfl
theorem decodeRequest_ceil : decodeRequest { op := 3, a := a } = .ceil a := rfl
theorem decodeRequest_unpack : decodeRequest { op := 4, a := a } = .unpack (lowByte a) := rfl
theorem decodeRequest_decode : decodeRequest { op := 5, a := a } = .decode (lowByte a) := rfl
theorem decodeRequest_pack :
    decodeRequest { op := 6, a := a } = .pack (mantissaField a) (exponentField a) := rfl
theorem decodeRequest_eq : decodeRequest { op := 7, a := a } = .eq (lowByte a) (secondByte a) := rfl

/-- A property of every operation code is one of the eight codes of R46. -/
theorem opSelect_cases {P : OpSelect → Prop} (h0 : P 0) (h1 : P 1) (h2 : P 2) (h3 : P 3) (h4 : P 4) (h5 : P 5)
    (h6 : P 6) (h7 : P 7) (op : OpSelect) : P op := by
  have h : op = 0 ∨ op = 1 ∨ op = 2 ∨ op = 3 ∨ op = 4 ∨ op = 5 ∨ op = 6 ∨ op = 7 := by
    revert op; decide
  rcases h with rfl | rfl | rfl | rfl | rfl | rfl | rfl | rfl <;> assumption

theorem lowByte_toNat : (lowByte a).toNat = a.toNat % 256 := by simp [lowByte]

theorem secondByte_toNat : (secondByte a).toNat = a.toNat / 256 % 256 := by
  simp [secondByte, Nat.shiftRight_eq_div_pow]

theorem mantissaField_toNat : (mantissaField a).toNat = a.toNat % 32 := by simp [mantissaField]

theorem exponentField_toNat : (exponentField a).toNat = a.toNat / 256 % 8 := by
  simp [exponentField, Nat.shiftRight_eq_div_pow]

/-- No term of `Instr` is ill-formed: the field widths are the ranges of R55 (10_state.md R18). -/
theorem instr_wellFormed (i : Instr) : i.wellFormed = true := by
  cases i <;>
    simp [Instr.wellFormed, Instr.source, SourceOp.wellFormed, magnitudeInRange, byteInRange, mantissaInRange,
      exponentInRange, Config.vw, Config.ctfw, Config.mmax, Config.emax] <;>
    omega

/-- Every number is decoded, or refused as wider than a request: nothing else happens. -/
theorem decodeWord_cases (w : Nat) :
    (w < 2 ^ 35 ∧ decodeWord w = .ok (decodeRequest (Request.ofWord (BitVec.ofNat 35 w)))) ∨
    (2 ^ 35 ≤ w ∧ decodeWord w = .error (.widerThanRequest w)) := by
  unfold decodeWord
  split
  · exact .inl ⟨‹_›, rfl⟩
  · exact .inr ⟨Nat.le_of_not_lt ‹_›, rfl⟩

end Sys2Proof
end

