-- ==== Sys2Proof/Laws/State.lean ====
section
/-! SUPPORT. One lemma per field per update of State, and what presenting a request can do. -/

namespace Sys2Proof.Machine

variable (s : State) (w : Word)

@[simp] theorem State.answer_op : (s.answer w).op = s.op := rfl
@[simp] theorem State.answer_a : (s.answer w).a = s.a := rfl
@[simp] theorem State.answer_r : (s.answer w).r = w := rfl
@[simp] theorem State.answer_pending : (s.answer w).pending = s.pending := rfl
@[simp] theorem State.answer_transcript : (s.answer w).transcript = s.transcript := rfl
@[simp] theorem State.answer_onPorts : (s.answer w).onPorts = s.onPorts := rfl

@[simp] theorem State.record_op : s.record.op = s.op := rfl
@[simp] theorem State.record_a : s.record.a = s.a := rfl
@[simp] theorem State.record_r : s.record.r = s.r := rfl
@[simp] theorem State.record_pending : s.record.pending = s.pending := rfl
@[simp] theorem State.record_transcript :
    s.record.transcript = s.transcript ++ [{ request := s.onPorts, response := s.r }] := rfl
@[simp] theorem State.record_onPorts : s.record.onPorts = s.onPorts := rfl

@[simp] theorem State.present_r : s.present.r = s.r := by
  unfold State.present; split <;> rfl

@[simp] theorem State.present_transcript : s.present.transcript = s.transcript := by
  unfold State.present; split <;> rfl

/-- With no pending request the ports keep the request they hold. -/
theorem State.present_nil (h : s.pending = []) : s.present = s := by
  simp [State.present, h]

/-- The next request goes on the ports and leaves the list. -/
theorem State.present_cons {q : Request} {rest : List Request} (h : s.pending = q :: rest) :
    s.present = { s with op := q.op, a := q.a, pending := rest } := by
  simp [State.present, h]

theorem State.present_onPorts {q : Request} {rest : List Request} (h : s.pending = q :: rest) :
    s.present.onPorts = q := by
  simp [State.present_cons s h, State.onPorts]

/-- A request merely held is not recorded. -/
theorem collect_nil (h : s.pending = []) (o : Host.Outcome State Fault Refusal) : collect s o = o := by
  simp [collect, h]

/-- A pending request that was answered is recorded. -/
theorem collect_cons_next {q : Request} {rest : List Request} (h : s.pending = q :: rest) (t : State) :
    collect s (.next t) = .next t.record := by
  simp [collect, h]

end Sys2Proof.Machine
end

