-- ==== Sys2Proof/Laws/Ops.lean ====
section
/-! SUPPORT. What the named functions of the pseudocode compute, said once in natural-number arithmetic: the lemmas later
proofs cite in place of unfolding `pack`, `unpack`, `mag` and the loop of `floor`. -/

namespace Sys2Proof.Machine

theorem mantissa_lt (c : Numeral) : c.mantissa.toNat < 32 := c.mantissa.isLt

theorem exponent_lt (c : Numeral) : c.exponent.toNat < 8 := c.exponent.isLt

/-- Two numerals with equal fields, read as numbers, are the same numeral. -/
theorem numeral_ext {c d : Numeral} (hm : c.mantissa.toNat = d.mantissa.toNat)
    (he : c.exponent.toNat = d.exponent.toNat) : c = d := by
  cases c; cases d
  simp only [Numeral.mk.injEq]
  exact ⟨BitVec.eq_of_toNat_eq hm, BitVec.eq_of_toNat_eq he⟩

theorem mag_eq (c : Numeral) : mag c = c.mantissa.toNat * 4 ^ c.exponent.toNat := rfl

/-- The number of a packed numeral (30_encoding.md R40: "equals e * 32 + m"). -/
theorem pack_toNat (c : Numeral) : (pack c).toNat = c.exponent.toNat * 32 + c.mantissa.toNat := by
  have hm := mantissa_lt c
  have he := exponent_lt c
  have h : (pack c).toNat = (c.exponent.toNat <<< 5) ||| c.mantissa.toNat := by
    simp only [pack, BitVec.toNat_or, BitVec.toNat_shiftLeft, BitVec.toNat_setWidth]
    rw [Nat.mod_eq_of_lt (a := c.mantissa.toNat) (by omega), Nat.mod_eq_of_lt (a := c.exponent.toNat) (by omega),
      Nat.mod_eq_of_lt (by rw [Nat.shiftLeft_eq]; omega)]
  rw [h, ← Nat.shiftLeft_add_eq_or_of_lt (by simpa using hm), Nat.shiftLeft_eq]

/-- The fields of an unpacked byte, as remainder and quotient (30_encoding.md R41: `b[4:0]`, `b[7:5]`). -/
theorem unpack_mantissa_toNat (b : Byte) : (unpack b).mantissa.toNat = b.toNat % 32 := by
  have h (n : Nat) : n &&& 31 = n % 32 := Nat.and_two_pow_sub_one_eq_mod n 5
  simp [unpack, h]

theorem unpack_exponent_toNat (b : Byte) : (unpack b).exponent.toNat = b.toNat / 32 := by
  have hb := b.isLt
  simp [unpack, Nat.and_two_pow_sub_one_eq_mod _ 3, Nat.shiftRight_eq_div_pow]
  omega

/-- The magnitude of a byte, as remainder times a power of 4 to the quotient. -/
theorem mag_unpack (b : Byte) : mag (unpack b) = b.toNat % 32 * 4 ^ (b.toNat / 32) := by
  rw [mag_eq, unpack_mantissa_toNat, unpack_exponent_toNat]

/-- The number of a byte result. -/
theorem byteResult_toNat (c : Numeral) : (byteResult c).toNat = c.exponent.toNat * 32 + c.mantissa.toNat := by
  have hm := mantissa_lt c
  have he := exponent_lt c
  rw [byteResult, BitVec.toNat_setWidth, pack_toNat]
  omega

/-- The number of a fields result. -/
theorem fieldsResult_toNat (c : Numeral) :
    (fieldsResult c).toNat = c.exponent.toNat * 256 + c.mantissa.toNat := by
  have hm := mantissa_lt c
  have he := exponent_lt c
  simp only [fieldsResult, BitVec.toNat_or, BitVec.toNat_shiftLeft, BitVec.toNat_setWidth]
  rw [Nat.mod_eq_of_lt (a := c.mantissa.toNat) (by omega), Nat.mod_eq_of_lt (a := c.exponent.toNat) (by omega),
    Nat.mod_eq_of_lt (by rw [Nat.shiftLeft_eq]; omega), ← Nat.shiftLeft_add_eq_or_of_lt (by omega), Nat.shiftLeft_eq]

/-- Everything the loop of `floor` can do with `left` exponent steps left: it takes the least number `k` of steps that brings
the value below 32, and answers the quotient at that exponent; where `left` steps are too few it answers `SAT`. -/
theorem floorFrom_cases (left rem : Nat) (hl : left ≤ 7) :
    (∃ k ≤ left, (floorFrom left rem).mantissa.toNat = rem / 4 ^ k ∧
      (floorFrom left rem).exponent.toNat = 7 - left + k ∧ rem / 4 ^ k < 32 ∧ (k = 0 ∨ 8 ≤ rem / 4 ^ k)) ∨
    (32 * 4 ^ left ≤ rem ∧ floorFrom left rem = satNumeral) := by
  induction left generalizing rem with
  | zero =>
    unfold floorFrom
    split
    · right; exact ⟨by simpa using ‹32 ≤ rem›, rfl⟩
    · left
      refine ⟨0, le_rfl, ?_, rfl, by simp; omega, .inl rfl⟩
      simp; omega
  | succ n ih =>
    unfold floorFrom
    split
    · rename_i h32
      have hs : rem >>> 2 = rem / 4 := by simp [Nat.shiftRight_eq_div_pow]
      rw [hs]
      rcases ih (rem / 4) (by omega) with ⟨k, hk, hm, he, hlt, hn⟩ | ⟨hbig, heq⟩
      · left
        have hq : rem / 4 ^ (k + 1) = rem / 4 / 4 ^ k := by
          rw [Nat.div_div_eq_div_mul, Nat.pow_succ, Nat.mul_comm]
        refine ⟨k + 1, by omega, by rw [hq]; exact hm, by omega, by rw [hq]; exact hlt, .inr ?_⟩
        rw [hq]
        rcases hn with rfl | h8
        · simp; omega
        · exact h8
      · right
        refine ⟨?_, heq⟩
        rw [Nat.pow_succ]; omega
    · left
      refine ⟨0, by omega, ?_, ?_, by simp; omega, .inl rfl⟩
      · simp; omega
      · simp only [BitVec.toNat_ofNat, Config.emax]
        omega

/-- Everything `floor` can answer: the quotient at the least exponent that brings the value below 32, or `SAT`. -/
theorem floor_cases (v : Nat) :
    (∃ e ≤ 7, (floor v).mantissa.toNat = v / 4 ^ e ∧ (floor v).exponent.toNat = e ∧ v / 4 ^ e < 32 ∧
      (e = 0 ∨ 8 ≤ v / 4 ^ e)) ∨
    (524288 ≤ v ∧ floor v = satNumeral) := by
  rcases floorFrom_cases 7 v le_rfl with ⟨k, hk, hm, he, hlt, hn⟩ | ⟨hbig, heq⟩
  · exact .inl ⟨k, hk, hm, by rw [floor, Config.emax]; omega, hlt, hn⟩
  · exact .inr ⟨by simpa using hbig, heq⟩

end Sys2Proof.Machine
end

