-- ==== Sys2Proof/Laws/PerInstr.lean ====
section
/-! SUPPORT. A statement about each operation as syntax: the assembler writes 0 in every bit of `a` the operation's format
does not read (30_encoding.md R55), and the code of R46 in `op`. -/

/-- The encoding of `i` holds its code and nothing in the ignored bits. -/
def Sys2Proof.Laws.CleanEncoding.Statement (i : Sys2Proof.Instr) : Prop :=
  (Sys2Proof.encode i).op = Sys2Proof.opcodeOf i ∧
    (Sys2Proof.encode i).a &&& ~~~(Sys2Proof.readMask (Sys2Proof.opcodeOf i)) = 0

theorem Sys2Proof.Laws.CleanEncoding.zero : Statement .zero := ⟨rfl, rfl⟩

theorem Sys2Proof.Laws.CleanEncoding.sat : Statement .sat := ⟨rfl, rfl⟩

theorem Sys2Proof.Laws.CleanEncoding.floor (v : Sys2Proof.Word) : Statement (.floor v) :=
  ⟨rfl, by simp [Sys2Proof.encode, Sys2Proof.operandOf, Sys2Proof.opcodeOf, Sys2Proof.readMask]⟩

theorem Sys2Proof.Laws.CleanEncoding.ceil (v : Sys2Proof.Word) : Statement (.ceil v) :=
  ⟨rfl, by simp [Sys2Proof.encode, Sys2Proof.operandOf, Sys2Proof.opcodeOf, Sys2Proof.readMask]⟩

theorem Sys2Proof.Laws.CleanEncoding.unpack (b : Sys2Proof.Byte) : Statement (.unpack b) :=
  ⟨rfl, by revert b; decide⟩

theorem Sys2Proof.Laws.CleanEncoding.decode (b : Sys2Proof.Byte) : Statement (.decode b) :=
  ⟨rfl, by revert b; decide⟩

theorem Sys2Proof.Laws.CleanEncoding.pack (m : Sys2Proof.Mantissa) (e : Sys2Proof.Exponent) :
    Statement (.pack m e) :=
  ⟨rfl, by revert m e; decide⟩

theorem Sys2Proof.Laws.CleanEncoding.eq (x y : Sys2Proof.Byte) : Statement (.eq x y) := by
  refine ⟨rfl, ?_⟩
  show Sys2Proof.operandOf (.eq x y) &&& ~~~(0x0000FFFF#32) = 0
  ext i hi
  interval_cases i <;> simp [Sys2Proof.operandOf]
end

