-- ==== Sys2Proof/Laws/Step.lean ====
section
/-! SUPPORT. Everything an operation can do, said once: it answers a word on `r`. -/

namespace Sys2Proof.Machine

/-- Every operation answers: the state it leaves is the state it found with some word on `r` (30_encoding.md R47). -/
theorem exec_answers (i : Instr) (s : State) : ∃ w, exec i s = .next (s.answer w) := by
  cases i <;> exact ⟨_, rfl⟩

variable (s : State) (nbits w : Nat)

@[simp] theorem State.withFetchWord_op : (s.withFetchWord nbits w).op = s.op := rfl
@[simp] theorem State.withFetchWord_a : (s.withFetchWord nbits w).a = s.a := rfl
@[simp] theorem State.withFetchWord_r : (s.withFetchWord nbits w).r = s.r := rfl
@[simp] theorem State.withFetchWord_pending : (s.withFetchWord nbits w).pending =
    Request.ofWord (BitVec.ofNat 35 (w % 2 ^ nbits)) :: s.pending := rfl
@[simp] theorem State.withFetchWord_transcript : (s.withFetchWord nbits w).transcript = s.transcript := rfl

end Sys2Proof.Machine
end

