-- ==== Sys2Proof/Tests/Slice0.lean ====
section
/-! SUPPORT. The model's own tests. Every expected value is copied from spec/: the corner cases of a rule, the tables of
95_test_vectors.md, or the words written out from the patterns of 30_encoding.md. -/

open Sys2Proof Sys2Proof.Machine

/-- A state with junk on the ports and one request pending. -/
def Tests.start (op : OpSelect) (a : Word) : State :=
  { op := 5, a := 0xDEADBEEF, r := 0x12345678, pending := [{ op := op, a := a }], transcript := [] }

/-- The response word of a step. -/
def Tests.response (s : State) : Option Word :=
  match step s with
  | .next t => some t.r
  | .fault _ => none
  | .refused _ => none

/-! ### Parameters and well-formedness -/

/-- R6 and R7: the widths of the types are the parameters. -/
theorem test_parameters : Config.opw + Config.aw = Config.reqw ∧ Config.mw + Config.ew = Config.ctfw ∧
    2 ^ Config.mw = Config.mmax + 1 ∧ 2 ^ Config.ew = Config.emax + 1 ∧
    Config.maxMag = Config.mmax * Config.base ^ Config.emax ∧ Config.maxMag < 2 ^ Config.magw ∧
    Config.magw ≤ Config.resw ∧ Config.vw = Config.aw ∧ Config.roll * Config.base = Config.mmax + 1 := by decide

/-- R98: "the assembler of 30_encoding.md rule R55 refuses an operand outside its stated range". -/
theorem test_wf_magnitude : SourceOp.wellFormed (.floor 4294967296) = false ∧
    SourceOp.wellFormed (.ceil 4294967296) = false ∧ SourceOp.wellFormed (.floor 4294967295) = true := by decide
theorem test_wf_byte : SourceOp.wellFormed (.unpack 256) = false ∧ SourceOp.wellFormed (.decode 256) = false ∧
    SourceOp.wellFormed (.unpack 255) = true := by decide
theorem test_wf_fields : SourceOp.wellFormed (.pack 32 0) = false ∧ SourceOp.wellFormed (.pack 0 8) = false ∧
    SourceOp.wellFormed (.pack 31 7) = true := by decide
theorem test_wf_bytes : SourceOp.wellFormed (.eq 256 0) = false ∧ SourceOp.wellFormed (.eq 0 256) = false ∧
    SourceOp.wellFormed (.eq 255 255) = true := by decide

/-! ### Decoding: the request words of 95_test_vectors.md sections 3.2 to 3.6 -/

theorem test_decode_zero : decodeTableWord 40 0x012345678 = some .zero := by decide
theorem test_decode_sat : decodeTableWord 40 0x1000000AA = some .sat := by decide
theorem test_decode_floor : decodeTableWord 40 0x2000003FF = some (.floor 1023) := by decide
theorem test_decode_ceil : decodeTableWord 40 0x30001F001 = some (.ceil 126977) := by decide
theorem test_decode_unpack : decodeTableWord 40 0x4ABCDEF70 = some (.unpack 0x70) := by decide
theorem test_decode_decode : decodeTableWord 40 0x5FFFFFF6F = some (.decode 0x6F) := by decide
theorem test_decode_pack : decodeTableWord 40 0x6FFFFFAF0 = some (.pack 16 2) := by decide
theorem test_decode_eq : decodeTableWord 40 0x7FFFF4430 = some (.eq 0x30 0x44) := by decide
/-- R43, R54: no request is longer than 35 bits. -/
theorem test_decode_refuses_36_bits : decodeTableWord 40 0x800000000 = none := by decide
theorem test_encode_pack : (encode (.pack 16 3)).word = 0x600000310 := by decide
theorem test_encode_eq : (encode (.eq 0x30 0x44)).word = 0x700004430 := by decide

/-! ### One step each: the corner cases of the operation's rule -/

theorem test_zero : Tests.response (Tests.start 0 0xFFFFFFFF) = some 0x00000000 := by decide
theorem test_sat : Tests.response (Tests.start 1 0x000000AA) = some 0x000000FF := by decide
theorem test_floor_truncates : Tests.response (Tests.start 2 1023) = some 0x0000006F := by decide
theorem test_floor_saturating_exit : Tests.response (Tests.start 2 524288) = some 0x000000FF ∧
    Tests.response (Tests.start 2 507903) = some 0x000000FE := by decide
theorem test_ceil_carries : Tests.response (Tests.start 3 125) = some 0x00000048 ∧
    Tests.response (Tests.start 3 131071) = some 0x000000E8 := by decide
theorem test_ceil_saturates : Tests.response (Tests.start 3 491521) = some 0x000000FF ∧
    Tests.response (Tests.start 3 507905) = some 0x000000FF ∧
    Tests.response (Tests.start 3 1025) = some 0x00000071 := by decide
theorem test_unpack : Tests.response (Tests.start 4 0xFFFFFF28) = some 0x00000108 := by decide
theorem test_unpack_keeps_non_normal : Tests.response (Tests.start 4 0x000000E0) = some 0x00000700 := by decide
theorem test_decode : Tests.response (Tests.start 5 0xFFFFFF6F) = some 0x000003C0 := by decide
theorem test_decode_maximum : Tests.response (Tests.start 5 0xFF) = some 0x0007C000 := by decide
theorem test_pack : Tests.response (Tests.start 6 0xFFFFFAF0) = some 0x00000050 := by decide
theorem test_pack_keeps_non_normal : Tests.response (Tests.start 6 0x00000700) = some 0x000000E0 := by decide
theorem test_eq_aliases : Tests.response (Tests.start 7 0xFFFF4430) = some 0x00000001 := by decide
theorem test_eq_differs : Tests.response (Tests.start 7 0x0000281F) = some 0x00000000 := by decide

/-- A placed request is the one the next step answers and records. -/
theorem test_fetch_word : ∃ t, step (State.reset.withFetchWord 40 0x2000003FF) = .next t ∧ t.r = 0x6F ∧
    t.transcript = [{ request := { op := 2, a := 1023 }, response := 0x6F }] ∧ t.pending = [] :=
  ⟨_, rfl, by decide, by decide, rfl⟩

/-- R27: with nothing pending the request on the ports is answered again, and not recorded. -/
theorem test_idle : ∃ t, step State.reset = .next t ∧ t = State.reset := ⟨_, rfl, by decide⟩

/-! ### The assembler: R55, R56 and programs P4 and P6 of 95_test_vectors.md -/

theorem test_assembler_refuses : assemble (.pack 32 0) = .error (.operandOutOfRange (.pack 32 0)) := rfl

/-- P4, read from its text with its labels and forwarded operands, is the list of request words the spec prints. -/
theorem test_program_p4 : ((readListing
      "%1: CTF.FLOOR  125   ; the floor\n%2: CTF.UNPACK %1\n%3: CTF.CEIL   125\n%4: CTF.UNPACK %3 -> 0x208\n%6: CTF.PACK   %4.m, %4.e").bind
      program).toOption.map (fun qs => qs.map Request.word) =
    some [0x20000007D, 0x40000003F, 0x30000007D, 0x400000048, 0x600000208] := by decide +kernel

/-- R56 with the source's scenario `decode(ceil(1025)) == 1088`. -/
theorem test_ceilmag : (programOfText "CTF.CEILMAG 1025").toOption.map (fun qs => qs.map responseOf) =
    some [0x71, 1088] := by decide

theorem test_claims : ((readListing "CTF.DECODE 0x6F -> 960").bind (claimsHold [])).toOption = some true ∧
    ((readListing "CTF.DECODE 0x6F -> 961").bind (claimsHold [])).toOption = some false := by decide

theorem test_unknown_line : (programOfText "CTF.ADD 1, 2").toOption = none ∧
    (programOfText "CTF.DECODE %7").toOption = none := by decide

/-- R85: the order of bytes is not the order of magnitudes. -/
theorem test_byte_order_is_not_magnitude_order : (0x1F : Byte).toNat < (0x27 : Byte).toNat ∧
    mag (unpack 0x27) = 28 ∧ mag (unpack 0x1F) = 31 := by decide

/-! ### Witnesses: what meets the hypotheses of each statement that has some, at the boundaries of its ranges -/

theorem witness_ignored_bits : (0xFFFFFAF0 : Word) &&& readMask 6 = (0x00000210 : Word) &&& readMask 6 := by decide
theorem witness_result_formats : ∃ q p t : Request, q.op = 0 ∧ p.op = 5 ∧ t.op = 7 :=
  ⟨⟨0, 0⟩, ⟨5, 0xFF⟩, ⟨7, 0⟩, rfl, rfl, rfl⟩
theorem witness_aliases : ∃ c d : Numeral, d.exponent.toNat < c.exponent.toNat ∧ mag c = mag d :=
  ⟨⟨4, 2⟩, ⟨16, 1⟩, by decide, by decide⟩
theorem witness_alias_boundary : ∃ c : Numeral, c.exponent.toNat = 7 ∧ c.mantissa.toNat = 7 ∧
    mag { mantissa := 4 * c.mantissa, exponent := c.exponent - 1 } = mag c := ⟨⟨7, 7⟩, by decide, by decide, by decide⟩
theorem witness_bit_equal : biteq ⟨31, 7⟩ satNumeral = true := by decide
theorem witness_three_aliases : mag ⟨16, 5⟩ = 16 * 4 ^ 5 ∧ mag ⟨4, 6⟩ = 16 * 4 ^ 5 ∧ mag ⟨1, 7⟩ = 16 * 4 ^ 5 := by decide
theorem witness_normal_forms : isNormal ⟨30, 7⟩ = true ∧ (⟨30, 7⟩ : Numeral) ≠ satNumeral ∧
    mag ⟨30, 7⟩ < 491521 ∧ 491521 < mag ⟨30, 7⟩ + 4 ^ (7 : Exponent).toNat ∧ isNormal ⟨0, 0⟩ = true := by decide
theorem witness_unique_normal_form : isNormal ⟨16, 1⟩ = true ∧ mag ⟨16, 1⟩ = mag ⟨1, 3⟩ := by decide
theorem witness_floor_ranges : (31 : Nat) < 32 ∧ (32 : Nat) ≤ 32 ∧ mag ⟨31, 6⟩ ≤ 131071 ∧
    floor 31 = ⟨31, 0⟩ ∧ floor 32 = ⟨8, 1⟩ ∧ floor 131071 = ⟨31, 6⟩ := by decide
theorem witness_saturation : (507904 : Nat) ≤ (507904 : Word).toNat ∧ (491520 : Nat) < (491521 : Word).toNat ∧
    floor 507903 = ⟨30, 7⟩ ∧ floor 507904 = satNumeral ∧ ceil 491520 = ⟨30, 7⟩ ∧ ceil 491521 = satNumeral := by decide
theorem witness_closed_form : floor 524287 = ⟨31, 7⟩ ∧ floor 524288 = satNumeral ∧ floor 32 = ⟨8, 1⟩ ∧
    (524287 : Nat) < 524288 := by decide
theorem witness_ceil_arms : meq (floor 507904) satNumeral = true ∧ mag (floor 32) = 32 ∧
    (mag (floor 33) ≠ 33 ∧ (floor 33).mantissa.toNat < 31) ∧
    (mag (floor 125) ≠ 125 ∧ (floor 125).mantissa.toNat = 31 ∧ (floor 125).exponent.toNat < 7) := by decide
theorem witness_ceil_ranges : ceil 507904 = satNumeral ∧ ceil 507905 = satNumeral ∧ (507904 : Nat) ≤ mag satNumeral := by
  decide
theorem witness_carry : (31 * 4 ^ 1 < 125 ∧ 127 < 32 * 4 ^ 1 ∧ 31 * 4 ^ 6 < 126977 ∧ 131071 < 32 * 4 ^ 6) ∧
    ceil 125 = ⟨8, 2⟩ ∧ ceil 127 = ⟨8, 2⟩ ∧ ceil 128 = ⟨8, 2⟩ ∧ ceil 126977 = ⟨8, 7⟩ ∧ ceil 131071 = ⟨8, 7⟩ := by decide
theorem witness_exact : (31 : Nat) < 32 ∧ Representable 64 ∧ Representable 507904 :=
  ⟨by decide, ⟨⟨16, 1⟩, by decide⟩, ⟨satNumeral, by decide⟩⟩
theorem witness_monotone : (127 : Nat) ≤ 128 ∧ mag (floor 127) = 124 ∧ mag (floor 128) = 128 := by decide
theorem witness_not_representable : (65 : Nat) ≤ 507904 ∧ ¬ Representable 65 := by
  refine ⟨by decide, ?_⟩
  rintro ⟨⟨m, e⟩, h⟩
  revert m e
  decide
theorem witness_fields : (31 : Nat) ≤ 31 ∧ (7 : Nat) ≤ 7 ∧
    blockExec 4 (blockExec 6 (BitVec.ofNat 32 (7 * 256 + 31))) = 0x71F := by decide
theorem witness_round_trip_ranges : (507904 : Word).toNat ≤ 507904 ∧ 507904 < (507905 : Word).toNat := by decide
theorem witness_eq_transitive : blockExec 7 0x4430 = 1 ∧ blockExec 7 0x6144 = 1 ∧ blockExec 7 0x6130 = 1 := by decide
theorem witness_exec_next : ∃ t, exec (.floor 35) State.reset = .next t ∧ t.r = 0x28 := ⟨_, rfl, by decide⟩
theorem witness_pending : (Tests.start 7 0x4430).pending = [{ op := 7, a := 0x4430 }] ∧
    (∃ t, exec (decodeRequest { op := 7, a := 0x4430 })
      { Tests.start 7 0x4430 with op := 7, a := 0x4430, pending := [] } = .next t) ∧
    State.reset.pending = [] := ⟨rfl, ⟨_, rfl⟩, rfl⟩
theorem witness_two_states : (Tests.start 2 35).pending = { op := 2, a := 35 } :: [] ∧
    (State.reset.withFetchWord 35 0x200000023).pending = { op := 2, a := 35 } :: [] ∧
    Tests.start 2 35 ≠ State.reset.withFetchWord 35 0x200000023 := by decide
theorem witness_faithful : State.reset.Faithful ∧ ∃ t, step State.reset = .next t :=
  ⟨⟨rfl, fun _ h => nomatch h⟩, _, rfl⟩
theorem witness_orders : ([⟨2, 35⟩, ⟨0, 0⟩] : List Request).Perm [⟨0, 0⟩, ⟨2, 35⟩] ∧
    ({ State.reset with pending := [⟨2, 35⟩, ⟨0, 0⟩] } : State).transcript = [] := ⟨List.Perm.swap _ _ _, rfl⟩
theorem witness_operand_ranges : (255 : Nat) ≤ 255 ∧ assemble (.unpack 255) = .ok ⟨4, 255⟩ ∧
    assemble (.unpack 256) = .error (.operandOutOfRange (.unpack 256)) ∧
    assemble (.floor 4294967295) = .ok ⟨2, 0xFFFFFFFF⟩ := ⟨by decide, rfl, rfl, rfl⟩
end

section
/-! One step as one transaction: the block function answers the decoded request, and what `step` does with a request pending
and with none. -/

namespace Sys2Proof.Machine

/-- The decoded operation of a request answers the word that R47's block function owes it, and does nothing else: on each of
the eight codes the decoder and the meaning read the bits of `a` that R47 reads. -/
theorem exec_decodeRequest (q : Request) (s : State) :
    exec (decodeRequest q) s = .next (s.answer (blockExec q.op q.a)) := by
  obtain ⟨op, a⟩ := q
  cases op using opSelect_cases <;> rfl

/-- With no request pending, a step is the decoded operation of the request held on the ports. -/
theorem step_nil {s : State} (h : s.pending = []) : step s = exec (decodeRequest s.onPorts) s := by
  rw [step, collect_nil s h, s.present_nil h]

/-- With a request pending, a step records what the decoded operation leaves of the state with that request presented. -/
theorem step_cons {s t : State} {q : Request} {rest : List Request} (h : s.pending = q :: rest)
    (ht : exec (decodeRequest q) { s with op := q.op, a := q.a, pending := rest } = .next t) :
    step s = .next t.record := by
  rw [step, s.present_onPorts h, s.present_cons h, ht, collect_cons_next s h]

/-- Settles O40: both clauses are what a step does, with the recorded transaction written out. -/
theorem stepRunsDecodedOperation : Obligations.StepRunsDecodedOperation := by
  unfold Obligations.StepRunsDecodedOperation
  exact ⟨fun _ _ _ _ h ht => step_cons h ht, fun _ h => step_nil h⟩

/-- Settles O41: a step runs the decoded operation, and that answers the block function's word. -/
theorem stepCompletesOneTransaction : Obligations.StepCompletesOneTransaction := by
  unfold Obligations.StepCompletesOneTransaction
  constructor
  · intro s q rest h
    exact step_cons h (exec_decodeRequest q _)
  · intro s h
    rw [step_nil h]
    exact exec_decodeRequest s.onPorts s

end Sys2Proof.Machine
end

section
/-! The invariant of a run, and what an operation and a step leave unchanged: each from the two equations of a step that
`stepCompletesOneTransaction` gives, or from `exec_answers`. -/

namespace Sys2Proof.Machine

/-- One transaction rightly answered keeps a transcript of such transactions right. -/
theorem answered_append {ts : List Transaction} (h : ∀ t ∈ ts, Answered t) (q : Request) :
    ∀ t ∈ ts ++ [{ request := q, response := responseOf q }], Answered t := by
  intro t ht
  rcases List.mem_append.mp ht with hold | hnew
  · exact h t hold
  · rw [List.mem_singleton.mp hnew]
    exact rfl

/-- Settles O43: a step puts `exec(op, a)` of the request on the ports on `r`, and records either nothing or exactly that
answer. -/
theorem stepKeepsRunFaithful : Obligations.StepKeepsRunFaithful := by
  unfold Obligations.StepKeepsRunFaithful
  intro s t hs hstep
  obtain ⟨step_pending, step_idle⟩ := stepCompletesOneTransaction
  cases hp : s.pending with
  | nil =>
    rw [step_idle s hp] at hstep
    cases hstep
    exact ⟨rfl, hs.answered⟩
  | cons q rest =>
    rw [step_pending s q rest hp] at hstep
    cases hstep
    exact ⟨rfl, answered_append hs.answered q⟩

/-- Settles O42: with `q` pending, either step answers the block function's word of `q`. -/
theorem responseIsFunctionOfRequest : Obligations.ResponseIsFunctionOfRequest := by
  unfold Obligations.ResponseIsFunctionOfRequest
  intro s s' q rest rest' h h'
  have step_pending := stepCompletesOneTransaction.1
  exact ⟨_, _, step_pending s q rest h, step_pending s' q rest' h', rfl, rfl⟩

/-- Settles O39: what an operation leaves is the state it found with some word on `r`. -/
theorem operationsChangeOnlyResponse : Obligations.OperationsChangeOnlyResponse := by
  unfold Obligations.OperationsChangeOnlyResponse
  intro i s t h
  obtain ⟨w, hw⟩ := exec_answers i s
  rw [hw] at h
  cases h
  exact ⟨rfl, rfl, rfl, rfl⟩

/-- Settles O44: `exec(0, 0)` is the word 0 that stands on `r`, and both lists are empty. -/
theorem resetIsFaithful : Obligations.ResetIsFaithful := by
  unfold Obligations.ResetIsFaithful
  have settled : State.reset.Settled := by
    unfold State.Settled
    decide
  exact ⟨⟨settled, List.forall_mem_nil _⟩, settled, rfl, rfl⟩

end Sys2Proof.Machine
end

section
/-! Numerals by their magnitude: the range of magnitudes, bit equality and aliases (10_state.md R17, R19, R22, R23). -/

namespace Sys2Proof.Machine

/-- At a fixed exponent the magnitude is at most that of mantissa 31. -/
theorem mag_le_mmax (c : Numeral) : mag c ≤ 31 * 4 ^ c.exponent.toNat :=
  Nat.mul_le_mul_right _ (Nat.le_of_lt_succ (mantissa_lt c))

/-- R17: no magnitude exceeds `31 * 4^7`. -/
theorem mag_le_maxMag (c : Numeral) : mag c ≤ 507904 := by
  have hpow : 4 ^ c.exponent.toNat ≤ 4 ^ 7 :=
    Nat.pow_le_pow_right (by decide) (Nat.le_of_lt_succ (exponent_lt c))
  have hmag := mag_le_mmax c
  omega

/-- R19: below exponent 7 the magnitude is at most `31 * 4^6`, and at exponent 7 only mantissa 31 reaches the maximum. -/
theorem mag_eq_maxMag_iff (c : Numeral) : mag c = 507904 ↔ c = satNumeral := by
  constructor
  · intro h
    have hmag := mag_le_mmax c
    have he : c.exponent.toNat = 7 := by
      by_contra hne
      have hpow : 4 ^ c.exponent.toNat ≤ 4 ^ 6 :=
        Nat.pow_le_pow_right (by decide) (by have := exponent_lt c; omega)
      omega
    rw [mag_eq, he] at h
    exact numeral_ext (show c.mantissa.toNat = 31 by omega) he
  · rintro rfl
    decide

/-- Settles O19: the shift is a multiplication by `2^(2 e) = 4^e`, and the bounds are `mag_le_maxMag` and
`mag_eq_maxMag_iff`. -/
theorem magnitudeRangeAndMaximum : Obligations.MagnitudeRangeAndMaximum := by
  unfold Obligations.MagnitudeRangeAndMaximum
  refine ⟨fun c => ⟨?_, mag_le_maxMag c, ?_, mag_eq_maxMag_iff c⟩, rfl, by decide⟩
  · rw [mag_eq, Nat.shiftLeft_eq, Nat.pow_mul]
  · exact (mag_le_maxMag c).trans_lt (by decide)

theorem biteq_iff_eq (c d : Numeral) : biteq c d = true ↔ c = d := by
  cases c; cases d
  simp [biteq]

/-- The byte `32 e + m` determines both fields, since `m < 32` (R42). -/
theorem pack_inj {c d : Numeral} : pack c = pack d ↔ c = d := by
  refine ⟨fun h => ?_, congrArg pack⟩
  have h' := congrArg BitVec.toNat h
  rw [pack_toNat, pack_toNat] at h'
  have hc := mantissa_lt c
  have hd := mantissa_lt d
  exact numeral_ext (by omega) (by omega)

/-- Settles O20: bit equality is equality of numerals, which `pack` preserves and reflects; the aliases (4, 2) and (16, 1) of
magnitude 64 refute the converse. -/
theorem bitEqualityIsByteEquality : Obligations.BitEqualityIsByteEquality := by
  unfold Obligations.BitEqualityIsByteEquality
  refine ⟨fun c d => ⟨by simp [biteq], (biteq_iff_eq c d).trans pack_inj.symm, fun h => ?_⟩,
    ⟨4, 2⟩, ⟨16, 1⟩, by decide⟩
  rw [(biteq_iff_eq c d).mp h]
  simp [meq]

/-- R23: a numeral of magnitude 0 has mantissa 0, a power of 4 being positive. -/
theorem mag_eq_zero_iff (c : Numeral) : mag c = 0 ↔ c.mantissa = 0 := by
  rw [mag_eq, BitVec.toNat_eq]
  simp

/-- R23: across exponents `e > e'`, magnitudes agree exactly when `m' = m * 4^(e - e')`. -/
theorem mag_eq_iff_of_exponent_lt {c d : Numeral} (h : d.exponent.toNat < c.exponent.toNat) :
    mag c = mag d ↔ d.mantissa.toNat = c.mantissa.toNat * 4 ^ (c.exponent.toNat - d.exponent.toNat) := by
  have hpow : 4 ^ c.exponent.toNat = 4 ^ (c.exponent.toNat - d.exponent.toNat) * 4 ^ d.exponent.toNat := by
    rw [← Nat.pow_add, Nat.sub_add_cancel h.le]
  rw [mag_eq, mag_eq, hpow, ← Nat.mul_assoc, Nat.mul_left_inj (by positivity), eq_comm]

/-- One exponent down, four times the mantissa. -/
def lowerAlias (c : Numeral) : Numeral := { mantissa := 4 * c.mantissa, exponent := c.exponent - 1 }

theorem lowerAlias_exponent_toNat {c : Numeral} (he : 1 ≤ c.exponent.toNat) :
    (lowerAlias c).exponent.toNat = c.exponent.toNat - 1 := by
  simp only [lowerAlias]
  bv_omega

/-- R23: a mantissa up to 7 can be multiplied by 4, and the numeral one exponent down has the same magnitude. -/
theorem mag_lowerAlias {c : Numeral} (he : 1 ≤ c.exponent.toNat) (hm : c.mantissa.toNat ≤ 7) :
    mag (lowerAlias c) = mag c := by
  have hmant : (lowerAlias c).mantissa.toNat = 4 * c.mantissa.toNat := by
    simp only [lowerAlias]
    bv_omega
  have hpow : 4 ^ c.exponent.toNat = 4 * 4 ^ (c.exponent.toNat - 1) := by
    rw [← Nat.pow_succ', Nat.succ_eq_add_one, Nat.sub_add_cancel he]
  rw [mag_eq, mag_eq, lowerAlias_exponent_toNat he, hmant, hpow]
  ring

/-- A magnitude that is a power of 4, from `4^2` on, belongs to a mantissa that is itself a power of 4: 1, 4 or 16. -/
theorem fields_of_mag_eq_four_pow {c : Numeral} {n : Nat} (h : mag c = 4 ^ n) :
    ∃ j ≤ 2, c.mantissa.toNat = 4 ^ j ∧ n = c.exponent.toNat + j := by
  rw [mag_eq] at h
  have hle : c.exponent.toNat ≤ n := (Nat.pow_dvd_pow_iff_le_right (by decide)).mp (Dvd.intro_left _ h)
  obtain ⟨j, rfl⟩ := Nat.exists_eq_add_of_le hle
  have hm : c.mantissa.toNat = 4 ^ j :=
    Nat.eq_of_mul_eq_mul_right (by positivity) (h.trans (by ring))
  refine ⟨j, ?_, hm, rfl⟩
  have hlt : 4 ^ j < 4 ^ 3 := by
    have := mantissa_lt c
    omega
  exact Nat.le_of_lt_succ ((Nat.pow_lt_pow_iff_right (by decide)).mp hlt)

/-- R23: the three numerals of magnitude `16 * 4^k`. -/
theorem mag_eq_sixteen_mul_four_pow_iff {k : Nat} (c : Numeral) (hk : k ≤ 5) :
    mag c = 16 * 4 ^ k ↔
      c = { mantissa := 16, exponent := BitVec.ofNat 3 k } ∨
      c = { mantissa := 4, exponent := BitVec.ofNat 3 (k + 1) } ∨
      c = { mantissa := 1, exponent := BitVec.ofNat 3 (k + 2) } := by
  have hpow : 16 * 4 ^ k = 4 ^ (k + 2) := by ring
  constructor
  · intro h
    obtain ⟨j, hj, hm, he⟩ := fields_of_mag_eq_four_pow (h.trans hpow)
    have exponent_eq {n : Nat} (hn : c.exponent.toNat = n) : c.exponent.toNat = (BitVec.ofNat 3 n).toNat := by
      subst hn
      simp
    interval_cases j
    · exact .inr (.inr (numeral_ext hm (exponent_eq (by omega))))
    · exact .inr (.inl (numeral_ext hm (exponent_eq (by omega))))
    · exact .inl (numeral_ext hm (exponent_eq (by omega)))
  · have ofNat_toNat {n : Nat} (hn : n ≤ 7) : (BitVec.ofNat 3 n).toNat = n := by
      simp
      omega
    rintro (rfl | rfl | rfl) <;> rw [mag_eq, ofNat_toNat (by omega), hpow]
    · change 16 * 4 ^ k = _
      ring
    · change 4 * 4 ^ (k + 1) = _
      ring
    · change 1 * 4 ^ (k + 2) = _
      ring

end Sys2Proof.Machine
end

section
/-! Normal forms: one a magnitude, in the order of their bytes, and exactly what `floor` and `ceil` answer (10_state.md R24,
R25). -/

namespace Sys2Proof.Machine

theorem isNormal_iff (c : Numeral) : isNormal c = true ↔ c.exponent.toNat = 0 ∨ 8 ≤ c.mantissa.toNat := by
  simp [isNormal, BitVec.toNat_eq]

/-- Lowering the exponent of a numeral that is not in normal form ends in a normal form of the same magnitude. -/
theorem exists_normal_mag_eq (c : Numeral) : ∃ d, isNormal d = true ∧ mag d = mag c := by
  induction he : c.exponent.toNat generalizing c with
  | zero => exact ⟨c, (isNormal_iff c).mpr (.inl he), rfl⟩
  | succ n ih =>
    by_cases hm : 8 ≤ c.mantissa.toNat
    · exact ⟨c, (isNormal_iff c).mpr (.inr hm), rfl⟩
    · have hexp : 1 ≤ c.exponent.toNat := by omega
      obtain ⟨d, hd, hmag⟩ := ih (lowerAlias c) (by rw [lowerAlias_exponent_toNat hexp]; omega)
      exact ⟨d, hd, hmag.trans (mag_lowerAlias hexp (by omega))⟩

theorem representable_iff_normal (v : Nat) : Representable v ↔ ∃ c, isNormal c = true ∧ mag c = v := by
  constructor
  · rintro ⟨c, rfl⟩
    exact exists_normal_mag_eq c
  · rintro ⟨c, -, hc⟩
    exact ⟨c, hc⟩

/-- A greater byte in normal form has a greater magnitude: at one exponent by its mantissa, and at a greater exponent since
`32 * 4^e = 8 * 4^(e + 1)`. -/
theorem mag_lt_of_pack_lt {c d : Numeral} (hd : isNormal d = true) (h : (pack c).toNat < (pack d).toNat) :
    mag c < mag d := by
  rw [pack_toNat, pack_toNat] at h
  have hm := mantissa_lt c
  have hm' := mantissa_lt d
  rcases (by omega : c.exponent.toNat ≤ d.exponent.toNat).eq_or_lt with he | he
  · rw [mag_eq, mag_eq, he]
    exact Nat.mul_lt_mul_of_pos_right (by omega) (by positivity)
  · have h8 : 8 ≤ d.mantissa.toNat := ((isNormal_iff d).mp hd).resolve_left (by omega)
    calc mag c < 32 * 4 ^ c.exponent.toNat := Nat.mul_lt_mul_of_pos_right hm (by positivity)
      _ = 8 * 4 ^ (c.exponent.toNat + 1) := by ring
      _ ≤ 8 * 4 ^ d.exponent.toNat := Nat.mul_le_mul_left _ (Nat.pow_le_pow_right (by decide) he)
      _ ≤ mag d := Nat.mul_le_mul_right _ h8

/-- R25: a magnitude has at most one normal form, since bytes that differ are ordered. -/
theorem normal_eq_of_mag_eq {c d : Numeral} (hc : isNormal c = true) (hd : isNormal d = true)
    (h : mag c = mag d) : c = d := by
  rcases Nat.lt_trichotomy (pack c).toNat (pack d).toNat with hlt | heq | hgt
  · exact absurd h (mag_lt_of_pack_lt hd hlt).ne
  · exact pack_inj.mp (BitVec.eq_of_toNat_eq heq)
  · exact absurd h (mag_lt_of_pack_lt hc hgt).ne'

/-- R24: normal forms are ordered by magnitude as their bytes are. -/
theorem pack_lt_iff_mag_lt {c d : Numeral} (hc : isNormal c = true) (hd : isNormal d = true) :
    (pack c).toNat < (pack d).toNat ↔ mag c < mag d := by
  refine ⟨mag_lt_of_pack_lt hd, fun h => ?_⟩
  rcases Nat.lt_trichotomy (pack c).toNat (pack d).toNat with hlt | heq | hgt
  · exact hlt
  · rw [pack_inj.mp (BitVec.eq_of_toNat_eq heq)] at h
    exact absurd h (lt_irrefl _)
  · exact absurd h (mag_lt_of_pack_lt hc hgt).asymm

/-- The normal form after `c`: the next mantissa, or from mantissa 31 the carry to (8, e + 1) that `ceil` makes (R66). -/
def nextNormal (c : Numeral) : Numeral :=
  if c.mantissa.toNat < 31 then { c with mantissa := c.mantissa + 1 } else { mantissa := 8, exponent := c.exponent + 1 }

/-- The two ways to go up from a numeral other than `SAT`, in natural numbers. -/
theorem nextNormal_cases {c : Numeral} (hsat : c ≠ satNumeral) :
    (c.mantissa.toNat < 31 ∧ (nextNormal c).mantissa.toNat = c.mantissa.toNat + 1 ∧
      (nextNormal c).exponent.toNat = c.exponent.toNat) ∨
    (c.mantissa.toNat = 31 ∧ (nextNormal c).mantissa.toNat = 8 ∧
      (nextNormal c).exponent.toNat = c.exponent.toNat + 1) := by
  by_cases hm : c.mantissa.toNat < 31
  · left
    rw [nextNormal, if_pos hm]
    exact ⟨hm, by bv_omega, rfl⟩
  · right
    have hm31 : c.mantissa.toNat = 31 := by have := mantissa_lt c; omega
    have he : c.exponent.toNat ≠ 7 := fun he => hsat (numeral_ext hm31 he)
    rw [nextNormal, if_neg hm]
    exact ⟨hm31, rfl, by bv_omega⟩

theorem isNormal_nextNormal {c : Numeral} (hc : isNormal c = true) (hsat : c ≠ satNumeral) :
    isNormal (nextNormal c) = true := by
  have hc' := (isNormal_iff c).mp hc
  rw [isNormal_iff]
  have := nextNormal_cases hsat
  omega

/-- R24: the gap above a numeral of exponent `e` is `4^e`; at the carry `31 * 4^e + 4^e = 8 * 4^(e + 1)`. -/
theorem mag_nextNormal {c : Numeral} (hsat : c ≠ satNumeral) :
    mag (nextNormal c) = mag c + 4 ^ c.exponent.toNat := by
  rw [mag_eq, mag_eq]
  rcases nextNormal_cases hsat with ⟨-, hm', he'⟩ | ⟨hm, hm', he'⟩
  · rw [hm', he']; ring
  · rw [hm', he', hm]; ring

/-- No normal form has a byte between that of `c` and that of `nextNormal c`: at the carry the bytes skipped have an exponent
of at least 1 and a mantissa below 8. -/
theorem pack_nextNormal_le {c d : Numeral} (hsat : c ≠ satNumeral) (hd : isNormal d = true)
    (h : (pack c).toNat < (pack d).toNat) : (pack (nextNormal c)).toNat ≤ (pack d).toNat := by
  have hd' := (isNormal_iff d).mp hd
  have hm := mantissa_lt d
  simp only [pack_toNat] at h ⊢
  rcases nextNormal_cases hsat with ⟨-, hm', he'⟩ | ⟨hm31, hm', he'⟩ <;> omega

/-- R24: no magnitude is representable between a normal form and the next. -/
theorem not_representable_between {c : Numeral} (hc : isNormal c = true) (hsat : c ≠ satNumeral) {v : Nat}
    (hlo : mag c < v) (hhi : v < mag c + 4 ^ c.exponent.toNat) : ¬ Representable v := by
  rw [representable_iff_normal]
  rintro ⟨d, hd, rfl⟩
  rw [← mag_nextNormal hsat, ← pack_lt_iff_mag_lt hd (isNormal_nextNormal hc hsat)] at hhi
  exact absurd hhi (pack_nextNormal_le hsat hd ((pack_lt_iff_mag_lt hc hd).mpr hlo)).not_gt

/-- A numeral written in natural numbers that fit its fields. -/
theorem representable_mul_four_pow {m e : Nat} (hm : m ≤ 31) (he : e ≤ 7) : Representable (m * 4 ^ e) := by
  refine ⟨{ mantissa := BitVec.ofNat 5 m, exponent := BitVec.ofNat 3 e }, ?_⟩
  rw [mag_eq, BitVec.toNat_ofNat, BitVec.toNat_ofNat, Nat.mod_eq_of_lt (by omega), Nat.mod_eq_of_lt (by omega)]

/-- R24: the magnitudes of the normal forms, by their two fields. -/
theorem representable_iff (v : Nat) :
    Representable v ↔ v < 32 ∨ ∃ m e, 8 ≤ m ∧ m ≤ 31 ∧ 1 ≤ e ∧ e ≤ 7 ∧ v = m * 4 ^ e := by
  constructor
  · rw [representable_iff_normal]
    rintro ⟨c, hc, rfl⟩
    have hm := mantissa_lt c
    have he := exponent_lt c
    rcases Nat.eq_zero_or_pos c.exponent.toNat with h0 | hpos
    · left
      rw [mag_eq, h0]
      omega
    · have h8 := ((isNormal_iff c).mp hc).resolve_left hpos.ne'
      exact .inr ⟨_, _, h8, by omega, hpos, by omega, rfl⟩
  · rintro (hv | ⟨m, e, -, hm, -, he, rfl⟩)
    · simpa using representable_mul_four_pow (by omega : v ≤ 31) (by decide : 0 ≤ 7)
    · exact representable_mul_four_pow hm he

/-- The representable magnitudes in increasing order: 0 to 31, then mantissas 8 to 31 at each exponent from 1 on (R24). -/
def increasingMagnitudes : List Nat :=
  List.range 32 ++ (List.range 7).flatMap fun e => (List.range 24).map fun m => (m + 8) * 4 ^ (e + 1)

theorem length_increasingMagnitudes : increasingMagnitudes.length = 200 := by simp [increasingMagnitudes]

theorem isChain_increasingMagnitudes : increasingMagnitudes.IsChain (· < ·) := by decide +kernel

theorem nodup_increasingMagnitudes : increasingMagnitudes.Nodup :=
  (List.isChain_iff_pairwise.mp isChain_increasingMagnitudes).imp Nat.ne_of_lt

theorem mem_increasingMagnitudes (v : Nat) : v ∈ increasingMagnitudes ↔ Representable v := by
  rw [representable_iff]
  simp only [increasingMagnitudes, List.mem_append, List.mem_flatMap, List.mem_map, List.mem_range]
  refine or_congr_right ⟨?_, ?_⟩
  · rintro ⟨e, he, m, hm, rfl⟩
    exact ⟨m + 8, e + 1, by omega, by omega, by omega, by omega, rfl⟩
  · rintro ⟨m, e, hm8, hm31, he1, he7, rfl⟩
    exact ⟨e - 1, by omega, m - 8, by omega, by rw [Nat.sub_add_cancel hm8, Nat.sub_add_cancel he1]⟩

/-- Settles O22: the list is `increasingMagnitudes`; order and gaps are those of the normal forms, each followed by its
`nextNormal`. -/
theorem representableMagnitudes : Obligations.RepresentableMagnitudes := by
  unfold Obligations.RepresentableMagnitudes
  refine ⟨⟨increasingMagnitudes, length_increasingMagnitudes, nodup_increasingMagnitudes,
    mem_increasingMagnitudes⟩, representable_iff, representable_iff_normal, fun _ _ => pack_lt_iff_mag_lt,
    fun c hc hsat => ⟨⟨nextNormal c, mag_nextNormal hsat⟩, fun v => not_representable_between hc hsat⟩⟩

/-- R25: `floor` answers a normal form, having gone up one exponent only from a value of at least 32. -/
theorem isNormal_floor (v : Nat) : isNormal (floor v) = true := by
  rcases floor_cases v with ⟨e, -, hm, he, -, hn⟩ | ⟨-, hsat⟩
  · rw [isNormal_iff]
    omega
  · rw [hsat]
    rfl

/-- Below 524,288 `floor` drops less than one unit of its exponent. -/
theorem floor_bracket {v : Nat} (hv : v < 524288) :
    mag (floor v) ≤ v ∧ v < mag (floor v) + 4 ^ (floor v).exponent.toNat := by
  rcases floor_cases v with ⟨e, -, hm, he, -⟩ | ⟨hbig, -⟩
  · rw [mag_eq, hm, he]
    exact ⟨Nat.div_mul_le_self v _, Nat.lt_div_mul_add (by positivity)⟩
  · omega

/-- `floor` gives a normal form back from its magnitude, since no other representable magnitude lies within one unit above
the answer. -/
theorem floor_mag {c : Numeral} (hc : isNormal c = true) : floor (mag c) = c := by
  have hmax := mag_le_maxMag c
  obtain ⟨hle, hlt⟩ := floor_bracket (by omega : mag c < 524288)
  refine normal_eq_of_mag_eq (isNormal_floor _) hc (hle.antisymm (Nat.le_of_not_lt fun hlow => ?_))
  have hsat : floor (mag c) ≠ satNumeral := fun h => by
    rw [← mag_eq_maxMag_iff] at h
    omega
  exact not_representable_between (isNormal_floor _) hsat hlow hlt ⟨c, rfl⟩

theorem meq_satNumeral_iff (c : Numeral) : meq c satNumeral = true ↔ c = satNumeral := by
  rw [meq, beq_iff_eq, ← mag_eq_maxMag_iff]
  rfl

/-- The arms of `ceil` (R66) as two: the value of `floor` where that is exact or `SAT`, and the next normal form elsewhere. The
dead fifth arm (R68) would need a numeral (31, 7) that is not `SAT`. -/
theorem ceil_eq (v : Nat) :
    ceil v = if floor v = satNumeral ∨ mag (floor v) = v then floor v else nextNormal (floor v) := by
  simp only [ceil, meq_satNumeral_iff]
  by_cases hsat : floor v = satNumeral
  · rw [if_pos hsat, if_pos (.inl hsat)]
  by_cases hexact : mag (floor v) = v
  · rw [if_neg hsat, if_pos hexact, if_pos (.inr hexact)]
  rw [if_neg hsat, if_neg hexact, if_neg (not_or_intro hsat hexact), nextNormal]
  by_cases hm : (floor v).mantissa.toNat < 31
  · rw [if_pos hm, if_pos hm]
  rcases nextNormal_cases hsat with ⟨hm', -⟩ | ⟨-, -, he⟩
  · exact absurd hm' hm
  have he7 : (floor v).exponent.toNat < 7 := by
    have := exponent_lt (nextNormal (floor v))
    omega
  rw [if_neg hm, if_neg hm, if_pos he7]
  rfl

/-- R25: `ceil` answers a normal form, that of `floor` or the next one. -/
theorem isNormal_ceil (v : Nat) : isNormal (ceil v) = true := by
  rw [ceil_eq]
  split
  · exact isNormal_floor v
  · next h => exact isNormal_nextNormal (isNormal_floor v) (not_or.mp h).1

/-- `ceil` of a normal form's magnitude is that of `floor`, which is exact. -/
theorem ceil_mag {c : Numeral} (hc : isNormal c = true) : ceil (mag c) = c := by
  rw [ceil_eq, floor_mag hc, if_pos (.inr rfl)]

/-- Settles O23: existence by lowering the exponent, uniqueness by the order of the bytes; a normal form is what either
rounding answers to its own magnitude. -/
theorem normalFormIsUnique : Obligations.NormalFormIsUnique := by
  unfold Obligations.NormalFormIsUnique
  refine ⟨fun c => ?_, fun c => ?_, fun c => ⟨⟨?_, fun hc => ⟨mag c, floor_mag hc⟩⟩, ?_,
    fun hc => ⟨mag c, ceil_mag hc⟩⟩⟩
  · rw [isNormal_iff, BitVec.toNat_eq]
    rfl
  · obtain ⟨d, hd, hmag⟩ := exists_normal_mag_eq c
    exact ⟨d, hd, hmag, fun d' hd' hmag' => normal_eq_of_mag_eq hd' hd (hmag'.trans hmag.symm)⟩
  · rintro ⟨v, rfl⟩
    exact isNormal_floor v
  · rintro ⟨v, rfl⟩
    exact isNormal_ceil v

end Sys2Proof.Machine
end

section
/-! How many of the 256 bytes each magnitude has (10_state.md R23). A numeral of magnitude `v` is fixed by its exponent, so `v`
occurs once for each exponent `e` at which `v / 4^e` is a mantissa. -/

namespace Sys2Proof.Machine

/-- The magnitudes of the 256 bytes, in the order of the bytes. -/
def byteMagnitudes : List Nat := (List.range 256).map fun n => mag (unpack (BitVec.ofNat 8 n))

/-- The exponents at which `v` has a mantissa, counted. -/
def aliasCount (v : Nat) : Nat := ((List.range 8).map fun e => if 4 ^ e ∣ v ∧ v / 4 ^ e < 32 then 1 else 0).sum

/-- The bytes `32 e + m` in their order are the exponents in theirs, each with the 32 mantissas. -/
theorem byteMagnitudes_eq :
    byteMagnitudes = (List.range 8).flatMap fun e => (List.range 32).map fun m => m * 4 ^ e := by
  have hmag : byteMagnitudes = (List.range 256).map fun n => n % 32 * 4 ^ (n / 32) := by
    refine List.map_congr_left fun n hn => ?_
    rw [mag_unpack, BitVec.toNat_ofNat, Nat.mod_eq_of_lt (List.mem_range.mp hn)]
  rw [hmag]
  decide +kernel

theorem mem_byteMagnitudes (v : Nat) : v ∈ byteMagnitudes ↔ Representable v := by
  simp only [byteMagnitudes_eq, List.mem_flatMap, List.mem_map, List.mem_range]
  constructor
  · rintro ⟨e, he, m, hm, rfl⟩
    exact representable_mul_four_pow (by omega) (by omega)
  · rintro ⟨c, rfl⟩
    exact ⟨_, exponent_lt c, _, mantissa_lt c, rfl⟩

/-- Among the magnitudes of one exponent no two are equal, so `v` occurs at most once there. -/
theorem count_magnitudes_of_exponent (e v : Nat) :
    ((List.range 32).map fun m => m * 4 ^ e).count v = if 4 ^ e ∣ v ∧ v / 4 ^ e < 32 then 1 else 0 := by
  have hpos : 0 < 4 ^ e := by positivity
  have hnodup : ((List.range 32).map fun m => m * 4 ^ e).Nodup :=
    List.nodup_range.map fun _ _ h => Nat.eq_of_mul_eq_mul_right hpos h
  rw [hnodup.count]
  refine if_congr ?_ rfl rfl
  rw [List.mem_map]
  constructor
  · rintro ⟨m, hm, rfl⟩
    exact ⟨Nat.dvd_mul_left _ _, by rwa [Nat.mul_div_cancel _ hpos, ← List.mem_range]⟩
  · rintro ⟨hdvd, hlt⟩
    exact ⟨v / 4 ^ e, List.mem_range.mpr hlt, Nat.div_mul_cancel hdvd⟩

theorem count_byteMagnitudes (v : Nat) : byteMagnitudes.count v = aliasCount v := by
  rw [byteMagnitudes_eq, List.count_flatMap, aliasCount]
  exact congrArg List.sum (List.map_congr_left fun e _ => count_magnitudes_of_exponent e v)

/-- Without repetition the magnitudes of the bytes are the 200 representable ones. -/
theorem dedup_byteMagnitudes_perm : byteMagnitudes.dedup.Perm increasingMagnitudes := by
  refine (List.perm_ext_iff_of_nodup (List.nodup_dedup _) nodup_increasingMagnitudes).mpr fun v => ?_
  rw [List.mem_dedup, mem_byteMagnitudes, mem_increasingMagnitudes]

/-- Selecting the distinct magnitudes of the bytes by their number of bytes is selecting the representable ones by their number
of exponents. -/
theorem filter_count_byteMagnitudes_perm (p : Nat → Bool) :
    (byteMagnitudes.dedup.filter fun v => p (byteMagnitudes.count v)).Perm
      (increasingMagnitudes.filter fun v => p (aliasCount v)) := by
  simp only [count_byteMagnitudes]
  exact dedup_byteMagnitudes_perm.filter _

theorem length_filter_count_byteMagnitudes (k : Nat) :
    (byteMagnitudes.dedup.filter fun v => byteMagnitudes.count v = k).length =
      (increasingMagnitudes.filter fun v => aliasCount v = k).length :=
  (filter_count_byteMagnitudes_perm fun n => n = k).length_eq

theorem filter_four_le_count_byteMagnitudes :
    byteMagnitudes.dedup.filter (fun v => 4 ≤ byteMagnitudes.count v) = [0] := by
  have h0 : increasingMagnitudes.filter (fun v => 4 ≤ aliasCount v) = [0] := by decide +kernel
  have hperm := filter_count_byteMagnitudes_perm fun n => 4 ≤ n
  rw [h0] at hperm
  exact hperm.eq_singleton

/-- Settles O21: the laws of aliases above, and the multiplicities counted as numbers of exponents over the 200 representable
magnitudes. The second disjunct of the first clause, both mantissas 0, is a case of the first. -/
theorem aliasesCharacterised : Obligations.AliasesCharacterised := by
  unfold Obligations.AliasesCharacterised
  refine ⟨fun c d h => ?_, fun _ => mag_lowerAlias, mag_eq_zero_iff, fun _ c => mag_eq_sixteen_mul_four_pow_iff c,
    (length_filter_count_byteMagnitudes 1).trans ?_, (length_filter_count_byteMagnitudes 2).trans ?_,
    (length_filter_count_byteMagnitudes 3).trans ?_, filter_four_le_count_byteMagnitudes,
    (count_byteMagnitudes 0).trans (by decide)⟩
  · rw [mag_eq_iff_of_exponent_lt h, iff_self_or]
    rintro ⟨hc, hd⟩
    simp [hc, hd]
  all_goals decide +kernel

end Sys2Proof.Machine
end

section
/-! A run over the pending requests: each step takes the first one and records its transaction, so the run records one transaction
per request, in their order (20_memory.md R36). -/

namespace Sys2Proof.Machine

/-- After a step that answers, a run goes on from the state it leaves. -/
theorem run_succ_of_next {M : Host.Core} {s t : M.State} (h : M.step s = .next t) (k : Nat) : M.run (k + 1) s = M.run k t := by
  simp only [Host.Core.run, h]

/-- What a step does to the two lists of a run: the first pending request goes, and its transaction comes last. -/
theorem step_lists_of_cons {s : State} {q : Request} {rest : List Request} (h : s.pending = q :: rest) :
    ∃ t, step s = .next t ∧ t.pending = rest ∧
      t.transcript = s.transcript ++ [{ request := q, response := responseOf q }] :=
  ⟨_, stepCompletesOneTransaction.1 s q rest h, rfl, rfl⟩

/-- As many steps as there are pending requests present them all and record each, in order, with the block function's word. -/
theorem run_lists_of_pending {s : State} {qs : List Request} (h : s.pending = qs) :
    ∃ t, Sys2Proof.core.run qs.length s = .next t ∧ t.pending = [] ∧
      t.transcript = s.transcript ++ qs.map fun q => { request := q, response := responseOf q } := by
  induction qs generalizing s with
  | nil => exact ⟨s, rfl, h, (List.append_nil _).symm⟩
  | cons q rest ih =>
    obtain ⟨s₁, hstep, hrest, hrecord⟩ := step_lists_of_cons h
    obtain ⟨t, hrun, hpending, htranscript⟩ := ih hrest
    refine ⟨t, (run_succ_of_next hstep _).trans hrun, hpending, ?_⟩
    rw [htranscript, hrecord, List.append_assoc, List.singleton_append, List.map_cons]

/-- Settles O46: from an empty transcript a run leaves the image of its requests under a function of the request alone, and
such images of two orders of the same requests are two orders of the same transactions. -/
theorem orderOfRequestsDoesNotMatter : Obligations.OrderOfRequestsDoesNotMatter := by
  unfold Obligations.OrderOfRequestsDoesNotMatter
  intro s s' hperm hs hs'
  obtain ⟨t, hrun, -, ht⟩ := run_lists_of_pending (s := s) rfl
  obtain ⟨t', hrun', -, ht'⟩ := run_lists_of_pending (s := s') rfl
  refine ⟨t, t', hrun, hrun', ?_⟩
  rw [ht, ht', hs, hs']
  exact hperm.map _

end Sys2Proof.Machine
end

section
/-! The request word (30_encoding.md R43) and what recognises an operation in it (R48). -/

namespace Sys2Proof

/-- R43: the request word holds `op` above the 32 bits of `a`. -/
theorem Request.word_toNat (q : Request) : q.word.toNat = q.op.toNat * 2 ^ 32 + q.a.toNat := by
  rw [Request.word, BitVec.toNat_append, ← Nat.shiftLeft_add_eq_or_of_lt q.a.isLt, Nat.shiftLeft_eq]

@[simp] theorem Request.ofWord_word (q : Request) : Request.ofWord q.word = q := by
  simp only [Request.ofWord, Request.word, BitVec.extractLsb'_append_eq_left, BitVec.extractLsb'_append_eq_right]

@[simp] theorem Request.word_ofWord (w : RequestWord) : (Request.ofWord w).word = w :=
  BitVec.extractLsb'_append_extractLsb'

/-- The number of a request word is decoded as the request. -/
theorem decodeWord_word (q : Request) : decodeWord q.word.toNat = .ok (decodeRequest q) := by
  rw [decodeWord, if_pos q.word.isLt, BitVec.ofNat_toNat, BitVec.setWidth_eq, Request.ofWord_word]

theorem opcodeOf_decodeRequest (q : Request) : opcodeOf (decodeRequest q) = q.op := by
  obtain ⟨op, a⟩ := q
  cases op using opSelect_cases <;> rfl

/-- A match value of R48 is the operation's code above 32 zeros. -/
theorem matchOf_eq_append (i : Instr) : matchOf i = opcodeOf i ++ 0#32 := by
  cases i <;> rw [matchOf, opcodeOf] <;> decide

/-- R48: under the mask only the bits of `op` are left, and they are the match value of the decoded operation. -/
theorem word_and_matchMask (q : Request) : q.word &&& matchMask = matchOf (decodeRequest q) := by
  have hmask : matchMask = BitVec.allOnes 3 ++ 0#32 := rfl
  rw [hmask, Request.word, BitVec.and_append, BitVec.and_allOnes, BitVec.and_zero, matchOf_eq_append,
    opcodeOf_decodeRequest]

/-- Settles O3: the masked word is the match value of the decoded operation, and the eight match values differ. -/
theorem operationRecognisedFromMatchAndMask : Obligations.OperationRecognisedFromMatchAndMask := by
  unfold Obligations.OperationRecognisedFromMatchAndMask
  intro q
  have hmatch : q.word &&& 0x700000000 = matchOf (decodeRequest q) := word_and_matchMask q
  rw [hmatch, word_and_matchMask]
  cases decodeRequest q <;> simp [matchOf]

/-- Settles O1: each written word computes to its operation. -/
theorem writtenWordsDecode : Obligations.WrittenWordsDecode := by
  unfold Obligations.WrittenWordsDecode
  decide

/-- Settles O2: `op` and `a` are put side by side, and cut apart at the same place. -/
theorem requestWordLayout : Obligations.RequestWordLayout := by
  unfold Obligations.RequestWordLayout
  exact ⟨fun q => ⟨q.word_toNat, q.ofWord_word⟩, Request.word_ofWord⟩

end Sys2Proof
end

section
/-! Operand fields (30_encoding.md R44): what a field cut out of `a` and put back in place keeps, and that the operand words the
assembler writes (R55) hold the fields the decoder reads. -/

namespace Sys2Proof

theorem operandOf_unpack_toNat (b : Byte) : (operandOf (.unpack b)).toNat = b.toNat :=
  BitVec.toNat_setWidth_of_le (by decide)

theorem operandOf_pack_toNat (m : Mantissa) (e : Exponent) :
    (operandOf (.pack m e)).toNat = e.toNat * 256 + m.toNat :=
  Machine.fieldsResult_toNat { mantissa := m, exponent := e }

theorem operandOf_eq_toNat (x y : Byte) : (operandOf (.eq x y)).toNat = y.toNat * 256 + x.toNat := by
  rw [operandOf, ← BitVec.setWidth_append_eq_shiftLeft_setWidth_or, BitVec.toNat_setWidth_of_le (by decide),
    BitVec.toNat_append, ← Nat.shiftLeft_add_eq_or_of_lt x.isLt, Nat.shiftLeft_eq]

theorem lowByte_operandOf_unpack (b : Byte) : lowByte (operandOf (.unpack b)) = b := by
  apply BitVec.eq_of_toNat_eq
  rw [lowByte_toNat, operandOf_unpack_toNat]
  have := b.isLt
  omega

theorem mantissaField_operandOf_pack (m : Mantissa) (e : Exponent) : mantissaField (operandOf (.pack m e)) = m := by
  apply BitVec.eq_of_toNat_eq
  rw [mantissaField_toNat, operandOf_pack_toNat]
  have := m.isLt
  omega

theorem exponentField_operandOf_pack (m : Mantissa) (e : Exponent) : exponentField (operandOf (.pack m e)) = e := by
  apply BitVec.eq_of_toNat_eq
  rw [exponentField_toNat, operandOf_pack_toNat]
  have := m.isLt
  have := e.isLt
  omega

theorem lowByte_operandOf_eq (x y : Byte) : lowByte (operandOf (.eq x y)) = x := by
  apply BitVec.eq_of_toNat_eq
  rw [lowByte_toNat, operandOf_eq_toNat]
  have := x.isLt
  omega

theorem secondByte_operandOf_eq (x y : Byte) : secondByte (operandOf (.eq x y)) = y := by
  apply BitVec.eq_of_toNat_eq
  rw [secondByte_toNat, operandOf_eq_toNat]
  have := x.isLt
  have := y.isLt
  omega

/-- Decoding reads back the fields that encoding put in place. -/
theorem decodeRequest_encode (i : Instr) : decodeRequest (encode i) = i := by
  cases i with
  | zero => rfl
  | sat => rfl
  | floor v => rfl
  | ceil v => rfl
  | unpack b => exact congrArg Instr.unpack (lowByte_operandOf_unpack b)
  | decode b => exact congrArg Instr.decode (lowByte_operandOf_unpack b)
  | pack m e => exact congrArg₂ Instr.pack (mantissaField_operandOf_pack m e) (exponentField_operandOf_pack m e)
  | eq x y => exact congrArg₂ Instr.eq (lowByte_operandOf_eq x y) (secondByte_operandOf_eq x y)

/-- A field cut out of `a` and put back in place is `a` under the field's mask. -/
theorem shiftLeft_extractLsb' (a : Word) (start len : Nat) :
    (a.extractLsb' start len).setWidth 32 <<< start = a &&& ((BitVec.allOnes len).setWidth 32 <<< start) := by
  ext i hi
  by_cases h : i < start
  · simp [h]
  · have hbit : start + (i - start) = i := by omega
    simp [h, hbit, Bool.and_comm, BitVec.getLsbD_eq_getElem hi]

/-- The same for a field that starts at bit 0. -/
theorem setWidth_extractLsb'_zero (a : Word) (len : Nat) :
    (a.extractLsb' 0 len).setWidth 32 = a &&& (BitVec.allOnes len).setWidth 32 := by
  simpa only [BitVec.shiftLeft_zero] using shiftLeft_extractLsb' a 0 len

theorem operandOf_unpack_lowByte (a : Word) : operandOf (.unpack (lowByte a)) = a &&& 0x000000FF :=
  setWidth_extractLsb'_zero a 8

theorem operandOf_pack_fields (a : Word) :
    operandOf (.pack (mantissaField a) (exponentField a)) = a &&& 0x0000071F := by
  rw [operandOf, mantissaField, exponentField, shiftLeft_extractLsb', setWidth_extractLsb'_zero,
    ← BitVec.and_or_distrib_left]
  rfl

theorem operandOf_eq_bytes (a : Word) : operandOf (.eq (lowByte a) (secondByte a)) = a &&& 0x0000FFFF := by
  rw [operandOf, lowByte, secondByte, shiftLeft_extractLsb', setWidth_extractLsb'_zero,
    ← BitVec.and_or_distrib_left]
  rfl

/-- Encoding what was decoded keeps of `a` the bits that are read, and no others. -/
theorem operandOf_decodeRequest (q : Request) : operandOf (decodeRequest q) = q.a &&& readMask q.op := by
  obtain ⟨op, a⟩ := q
  cases op using opSelect_cases with
  | h0 => exact BitVec.and_zero.symm
  | h1 => exact BitVec.and_zero.symm
  | h2 => exact BitVec.and_allOnes.symm
  | h3 => exact BitVec.and_allOnes.symm
  | h4 => exact operandOf_unpack_lowByte a
  | h5 => exact operandOf_unpack_lowByte a
  | h6 => exact operandOf_pack_fields a
  | h7 => exact operandOf_eq_bytes a

/-- Settles O4: decoding reads back the fields encoding put in place, and a request word's number is decoded as its request. -/
theorem decodeEncodeRoundTrip : Obligations.DecodeEncodeRoundTrip := by
  unfold Obligations.DecodeEncodeRoundTrip
  intro i
  have h := decodeRequest_encode i
  exact ⟨h, by rw [decodeWord_word, h]⟩

/-- Settles O5: the code is kept, and the operand word is what was read of `a`. -/
theorem encodeDecodeClearsIgnoredBits : Obligations.EncodeDecodeClearsIgnoredBits := by
  unfold Obligations.EncodeDecodeClearsIgnoredBits
  intro q
  rw [encode, opcodeOf_decodeRequest, operandOf_decodeRequest]

end Sys2Proof
end

section
/-! What the ignored bits of `a` cannot change (30_encoding.md R51). -/

namespace Sys2Proof

/-- Operands that agree on the bits read are decoded to operations of one encoding, so to one operation. -/
theorem decodeRequest_congr {op : OpSelect} {a a' : Word} (h : a &&& readMask op = a' &&& readMask op) :
    decodeRequest { op := op, a := a } = decodeRequest { op := op, a := a' } := by
  have hencode : encode (decodeRequest { op := op, a := a }) = encode (decodeRequest { op := op, a := a' }) := by
    rw [encodeDecodeClearsIgnoredBits, encodeDecodeClearsIgnoredBits, h]
  rw [← decodeRequest_encode (decodeRequest { op := op, a := a }), hencode, decodeRequest_encode]

/-- The block function's word is a function of the decoded operation. -/
theorem blockExec_congr {q q' : Request} (h : decodeRequest q = decodeRequest q') :
    Machine.blockExec q.op q.a = Machine.blockExec q'.op q'.a := by
  have hexec := Machine.exec_decodeRequest q Machine.State.reset
  rw [h, Machine.exec_decodeRequest] at hexec
  injection hexec with hstate
  exact (congrArg Machine.State.r hstate).symm

/-- Settles O6: both operands decode to one operation, and the response is that operation's. -/
theorem ignoredOperandBitsDoNotMatter : Obligations.IgnoredOperandBitsDoNotMatter := by
  unfold Obligations.IgnoredOperandBitsDoNotMatter
  intro op a a' h
  have hdecode := decodeRequest_congr h
  exact ⟨blockExec_congr hdecode, hdecode, fun s => congrArg (Machine.exec · s) hdecode⟩

end Sys2Proof
end

section
/-! Responses by result format (30_encoding.md R45, R53), and `pack` and `unpack` as inverses (R42). -/

namespace Sys2Proof.Machine

/-- R42: `32 e + m` has the fields `e` and `m`. -/
@[simp] theorem unpack_pack (c : Numeral) : unpack (pack c) = c := by
  have hm := mantissa_lt c
  apply numeral_ext
  · rw [unpack_mantissa_toNat, pack_toNat]
    omega
  · rw [unpack_exponent_toNat, pack_toNat]
    omega

/-- R42: a byte is 32 times its exponent field and its mantissa field. -/
@[simp] theorem pack_unpack (b : Byte) : pack (unpack b) = b := by
  apply BitVec.eq_of_toNat_eq
  rw [pack_toNat, unpack_mantissa_toNat, unpack_exponent_toNat]
  omega

/-- Settles O18: `unpack_pack` and `pack_unpack`. -/
theorem packAndUnpackAreInverse : Obligations.PackAndUnpackAreInverse := by
  unfold Obligations.PackAndUnpackAreInverse
  exact ⟨fun c => ⟨(biteq_iff_eq _ _).mpr (unpack_pack c), unpack_pack c⟩, pack_unpack⟩

/-- Settles O33: an operation answers the block function's word, and to answer it is to put it on `r`. -/
theorem meaningsAgreeWithBlockFunction : Obligations.MeaningsAgreeWithBlockFunction := by
  unfold Obligations.MeaningsAgreeWithBlockFunction
  exact exec_decodeRequest

theorem byteResult_toNat_le (c : Numeral) : (byteResult c).toNat ≤ 255 := by
  have hm := mantissa_lt c
  have he := exponent_lt c
  rw [byteResult_toNat]
  omega

/-- A magnitude fits the response word. -/
theorem magnitudeResult_mag_toNat (c : Numeral) : (magnitudeResult (mag c)).toNat = mag c :=
  Nat.mod_eq_of_lt ((mag_le_maxMag c).trans_lt (by decide))

theorem flagResult_toNat_le (equal : Bool) : (flagResult equal).toNat ≤ 1 := by
  cases equal <;> decide

/-- A word below `2^k` has no bit outside the mask of the low `k` bits. -/
theorem and_not_eq_zero_of_lt {w mask : Word} (k : Nat) (hmask : mask.toNat = 2 ^ k - 1) (hw : w.toNat < 2 ^ k) :
    w &&& ~~~mask = 0 := by
  have hkeep : w &&& mask = w := by
    apply BitVec.eq_of_toNat_eq
    rw [BitVec.toNat_and, hmask, Nat.and_two_pow_sub_one_of_lt_two_pow hw]
  rw [← hkeep, BitVec.and_assoc, BitVec.and_not_self]
  exact BitVec.and_zero

theorem byteResult_and_not_mask (c : Numeral) : byteResult c &&& ~~~0x000000FF = 0 :=
  and_not_eq_zero_of_lt 8 rfl (Nat.lt_succ_of_le (byteResult_toNat_le c))

/-- The fields of a result stand where `CTF.PACK` reads them (R44, R45), in an operand word that the assembler could write. -/
theorem fieldsResult_and_not_mask (c : Numeral) : fieldsResult c &&& ~~~0x0000071F = 0 :=
  (Laws.CleanEncoding.pack c.mantissa c.exponent).2

theorem magnitudeResult_mag_and_not_mask (c : Numeral) : magnitudeResult (mag c) &&& ~~~0x0007FFFF = 0 := by
  apply and_not_eq_zero_of_lt 19 rfl
  rw [magnitudeResult_mag_toNat]
  exact (mag_le_maxMag c).trans_lt (by decide)

theorem flagResult_and_not_mask (equal : Bool) : flagResult equal &&& ~~~0x00000001 = 0 :=
  and_not_eq_zero_of_lt 1 rfl (Nat.lt_succ_of_le (flagResult_toNat_le equal))

/-- R53: each operation answers in the result format of its code (R45). -/
theorem blockExec_and_not_resultMask (op : OpSelect) (a : Word) : blockExec op a &&& ~~~resultMask op = 0 := by
  cases op using opSelect_cases with
  | h0 => exact byteResult_and_not_mask zeroNumeral
  | h1 => exact byteResult_and_not_mask satNumeral
  | h2 => exact byteResult_and_not_mask (floor a.toNat)
  | h3 => exact byteResult_and_not_mask (ceil a.toNat)
  | h4 => exact fieldsResult_and_not_mask (unpack (lowByte a))
  | h5 => exact magnitudeResult_mag_and_not_mask (unpack (lowByte a))
  | h6 => exact byteResult_and_not_mask ⟨mantissaField a, exponentField a⟩
  | h7 => exact flagResult_and_not_mask (meq (unpack (lowByte a)) (unpack (secondByte a)))

/-- The response of `CTF.DECODE` is the magnitude of the low byte. -/
theorem blockExec_decode_toNat (a : Word) : (blockExec 5 a).toNat = mag (unpack (lowByte a)) :=
  magnitudeResult_mag_toNat (unpack (lowByte a))

/-- Settles O17: the response is the block function's word, and each bound is that of its result format. -/
theorem unlistedResponseBitsAreZero : Obligations.UnlistedResponseBitsAreZero := by
  unfold Obligations.UnlistedResponseBitsAreZero
  rintro ⟨op, a⟩ s
  refine ⟨_, exec_decodeRequest _ s, blockExec_and_not_resultMask op a, ?_, ?_, ?_⟩
  · rintro (rfl | rfl | rfl | rfl | rfl) <;> exact byteResult_toNat_le _
  · rintro rfl
    exact (blockExec_decode_toNat a).trans_le (mag_le_maxMag _)
  · rintro rfl
    exact flagResult_toNat_le (meq (unpack (lowByte a)) (unpack (secondByte a)))

end Sys2Proof.Machine
end

section
/-! The assembler on each line (30_encoding.md R55) and on the pseudo-instructions (R56). -/

namespace Sys2Proof.Machine

theorem operandOf_unpack_ofNat {b : Nat} (h : b ≤ 255) :
    operandOf (.unpack (BitVec.ofNat 8 b)) = BitVec.ofNat 32 b := by
  apply BitVec.eq_of_toNat_eq
  rw [operandOf_unpack_toNat, BitVec.toNat_ofNat, BitVec.toNat_ofNat]
  omega

theorem operandOf_pack_ofNat {m e : Nat} (hm : m ≤ 31) (he : e ≤ 7) :
    operandOf (.pack (BitVec.ofNat 5 m) (BitVec.ofNat 3 e)) = BitVec.ofNat 32 (e * 256 + m) := by
  apply BitVec.eq_of_toNat_eq
  rw [operandOf_pack_toNat, BitVec.toNat_ofNat, BitVec.toNat_ofNat, BitVec.toNat_ofNat]
  omega

theorem operandOf_eq_ofNat {x y : Nat} (hx : x ≤ 255) (hy : y ≤ 255) :
    operandOf (.eq (BitVec.ofNat 8 x) (BitVec.ofNat 8 y)) = BitVec.ofNat 32 (y * 256 + x) := by
  apply BitVec.eq_of_toNat_eq
  rw [operandOf_eq_toNat, BitVec.toNat_ofNat, BitVec.toNat_ofNat, BitVec.toNat_ofNat]
  omega

/-- What the assembler makes of a line, given its range check and, where that passes, its request. -/
theorem assemble_eq_ite {line : SourceOp} {P : Prop} [Decidable P] {q : Request} (hrange : line.wellFormed = true ↔ P)
    (hencode : P → encode (SourceOp.instr line) = q) :
    assemble line = if P then .ok q else .error (.operandOutOfRange line) := by
  rw [assemble]
  by_cases h : P
  · rw [if_pos (hrange.mpr h), if_pos h, hencode h]
  · rw [if_neg (mt hrange.mp h), if_neg h]

theorem magnitudeInRange_iff (v : Nat) : magnitudeInRange v = true ↔ v < 2 ^ 32 := decide_eq_true_iff

theorem byteInRange_iff (b : Nat) : byteInRange b = true ↔ b ≤ 255 := decide_eq_true_iff.trans Nat.lt_succ_iff

theorem bytesInRange_iff (x y : Nat) : (byteInRange x && byteInRange y) = true ↔ x ≤ 255 ∧ y ≤ 255 := by
  rw [Bool.and_eq_true, byteInRange_iff, byteInRange_iff]

theorem fieldsInRange_iff (m e : Nat) : (mantissaInRange m && exponentInRange e) = true ↔ m ≤ 31 ∧ e ≤ 7 := by
  rw [Bool.and_eq_true, mantissaInRange, exponentInRange, decide_eq_true_iff, decide_eq_true_iff]

/-- Settles O47: each line by its range check and, in range, by the operand word of its fields. -/
theorem assemblerFollowsSyntax : Obligations.AssemblerFollowsSyntax := by
  unfold Obligations.AssemblerFollowsSyntax
  refine ⟨rfl, rfl,
    fun v => assemble_eq_ite (magnitudeInRange_iff v) fun _ => rfl,
    fun v => assemble_eq_ite (magnitudeInRange_iff v) fun _ => rfl,
    fun b => assemble_eq_ite (byteInRange_iff b) fun hb => ?_,
    fun b => assemble_eq_ite (byteInRange_iff b) fun hb => ?_,
    fun m e => assemble_eq_ite (fieldsInRange_iff m e) fun ⟨hm, he⟩ => ?_,
    fun x y => assemble_eq_ite (bytesInRange_iff x y) fun ⟨hx, hy⟩ => ?_⟩
  · exact congrArg (Request.mk 4) (operandOf_unpack_ofNat hb)
  · exact congrArg (Request.mk 5) (operandOf_unpack_ofNat hb)
  · exact congrArg (Request.mk 6) (operandOf_pack_ofNat hm he)
  · exact congrArg (Request.mk 7) (operandOf_eq_ofNat hx hy)

/-- A word as operand of `CTF.FLOOR` is always in range. -/
theorem assemble_floor_toNat (v : Word) : assemble (.floor v.toNat) = .ok { op := 2, a := v } := by
  obtain ⟨-, -, assemble_floor, -⟩ := assemblerFollowsSyntax
  rw [assemble_floor, if_pos v.isLt, BitVec.ofNat_toNat, BitVec.setWidth_eq]

/-- A word as operand of `CTF.CEIL` is always in range. -/
theorem assemble_ceil_toNat (v : Word) : assemble (.ceil v.toNat) = .ok { op := 3, a := v } := by
  obtain ⟨-, -, -, assemble_ceil, -⟩ := assemblerFollowsSyntax
  rw [assemble_ceil, if_pos v.isLt, BitVec.ofNat_toNat, BitVec.setWidth_eq]

/-- A byte result can be forwarded whole to `CTF.DECODE`. -/
theorem assemble_decode_byteResult (c : Numeral) :
    assemble (.decode (byteResult c).toNat) = .ok { op := 5, a := byteResult c } := by
  obtain ⟨-, -, -, -, -, assemble_decode, -⟩ := assemblerFollowsSyntax
  rw [assemble_decode, if_pos (byteResult_toNat_le c), BitVec.ofNat_toNat, BitVec.setWidth_eq]

/-- The two requests of a rounding whose response is a byte result. -/
theorem thenDecode_eq {rounding : SourceOp} {q : Request} {c : Numeral} (hq : assemble rounding = .ok q)
    (hc : responseOf q = byteResult c) : thenDecode rounding = .ok [q, { op := 5, a := byteResult c }] := by
  simp only [thenDecode, hq, hc, bind, Except.bind, assemble_decode_byteResult]
  rfl

/-- Decoding a byte result gives the magnitude of its numeral. -/
theorem blockExec_decode_byteResult (c : Numeral) : (blockExec 5 (byteResult c)).toNat = mag c := by
  have hbyte : lowByte (byteResult c) = pack c := lowByte_operandOf_unpack (pack c)
  rw [blockExec_decode_toNat, hbyte, unpack_pack]

/-- Settles O48: the aliases by computing; the expansions by forwarding the byte result of the rounding to `CTF.DECODE`. -/
theorem pseudoInstructionsExpand : Obligations.PseudoInstructionsExpand := by
  unfold Obligations.PseudoInstructionsExpand
  intro done v
  exact ⟨rfl, rfl, thenDecode_eq (assemble_floor_toNat v) rfl, blockExec_decode_byteResult (floor v.toNat),
    thenDecode_eq (assemble_ceil_toNat v) rfl, blockExec_decode_byteResult (ceil v.toNat)⟩

end Sys2Proof.Machine
end

section
/-! `floor` over all natural numbers (40_encoder.md R62, R64, R65): the normal form whose unit contains the value, which makes it
the greatest representable magnitude not above. -/

namespace Sys2Proof.Machine

/-- `floor` never rounds up: from 524,288 on the value is above every magnitude. -/
theorem mag_floor_le (v : Nat) : mag (floor v) ≤ v := by
  by_cases hv : v < 524288
  · exact (floor_bracket hv).1
  · have := mag_le_maxMag (floor v)
    omega

/-- Where `floor` did not saturate, it drops less than one unit of its exponent. -/
theorem lt_mag_floor_add {v : Nat} (hsat : floor v ≠ satNumeral) : v < mag (floor v) + 4 ^ (floor v).exponent.toNat := by
  rcases floor_cases v with ⟨e, -, hm, he, -⟩ | ⟨-, h⟩
  · rw [mag_eq, hm, he]
    exact Nat.lt_div_mul_add (by positivity)
  · exact absurd h hsat

/-- No representable magnitude lies in the unit above the answer of `floor`, so none not above the value exceeds it. -/
theorem mag_le_mag_floor {c : Numeral} {v : Nat} (h : mag c ≤ v) : mag c ≤ mag (floor v) := by
  by_contra hgt
  have hsat : floor v ≠ satNumeral := fun hsat => by
    have := (mag_eq_maxMag_iff _).mpr hsat
    have := mag_le_maxMag c
    omega
  exact not_representable_between (isNormal_floor v) hsat (by omega) (h.trans_lt (lt_mag_floor_add hsat)) ⟨c, rfl⟩

/-- R64: `SAT` is representable, so it is the answer exactly from its own magnitude on. -/
theorem floor_eq_satNumeral_iff (v : Nat) : floor v = satNumeral ↔ 507904 ≤ v := by
  rw [← mag_eq_maxMag_iff]
  constructor
  · intro h
    exact h ▸ mag_floor_le v
  · exact fun h => (mag_le_maxMag _).antisymm (mag_le_mag_floor (c := satNumeral) h)

/-- A normal form whose unit contains the value is its `floor`. -/
theorem floor_eq_of_bracket {c : Numeral} {v : Nat} (hc : isNormal c = true) (hle : mag c ≤ v)
    (hlt : v < mag c + 4 ^ c.exponent.toNat) : floor v = c := by
  by_cases hsat : c = satNumeral
  · rw [hsat, floor_eq_satNumeral_iff]
    rwa [(mag_eq_maxMag_iff c).mpr hsat] at hle
  refine normal_eq_of_mag_eq (isNormal_floor v) hc ((mag_le_mag_floor hle).antisymm' (Nat.le_of_not_lt fun hgt => ?_))
  exact not_representable_between hc hsat hgt ((mag_floor_le v).trans_lt hlt) ⟨_, rfl⟩

theorem mag_floor_eq_iff (v : Nat) : mag (floor v) = v ↔ Representable v := by
  constructor
  · exact fun h => ⟨floor v, h⟩
  · rintro ⟨c, rfl⟩
    exact (mag_floor_le _).antisymm (mag_le_mag_floor le_rfl)

theorem floor_of_lt {v : Nat} (hv : v < 32) : floor v = { mantissa := BitVec.ofNat 5 v, exponent := 0 } := by
  rw [floor, Config.emax, floorFrom, if_neg (by omega)]
  rfl

/-- The numeral one exponent up, of four times the magnitude where there is such an exponent. -/
def raiseExponent (c : Numeral) : Numeral := { c with exponent := c.exponent + 1 }

theorem raiseExponent_exponent_toNat {c : Numeral} (he : c.exponent.toNat ≠ 7) :
    (raiseExponent c).exponent.toNat = c.exponent.toNat + 1 := by
  simp only [raiseExponent]
  bv_omega

theorem mag_raiseExponent {c : Numeral} (he : c.exponent.toNat ≠ 7) : mag (raiseExponent c) = 4 * mag c := by
  rw [mag_eq, raiseExponent_exponent_toNat he, mag_eq, Nat.pow_succ]
  simp only [raiseExponent]
  ring

/-- From 8 on the mantissa of `floor` is at least 8: at exponent 0 it is the value itself. -/
theorem eight_le_floor_mantissa {v : Nat} (hv : 8 ≤ v) : 8 ≤ (floor v).mantissa.toNat := by
  rcases floor_cases v with ⟨e, -, hm, -, -, rfl | h8⟩ | ⟨-, hsat⟩
  · rw [hm]
    simpa using hv
  · rwa [hm]
  · rw [hsat]
    decide

/-- R62: one turn of the loop, seen from outside: four times the unit that contains `v / 4` contains `v`; and exponent 7 is
reached from `8 * 4^7` on, of which four times saturates. -/
theorem floor_of_le {v : Nat} (hv : 32 ≤ v) :
    floor v = if (floor (v / 4)).exponent.toNat = 7 then satNumeral else raiseExponent (floor (v / 4)) := by
  have h8 : 8 ≤ (floor (v / 4)).mantissa.toNat := eight_le_floor_mantissa (by omega)
  have hle := mag_floor_le (v / 4)
  split
  · next he =>
    have hmag : 8 * 4 ^ 7 ≤ mag (floor (v / 4)) := by
      rw [mag_eq, he]
      exact Nat.mul_le_mul_right _ h8
    rw [floor_eq_satNumeral_iff]
    omega
  · next he =>
    have hlt : v / 4 < mag (floor (v / 4)) + 4 ^ (floor (v / 4)).exponent.toNat :=
      lt_mag_floor_add fun hsat => he (by rw [hsat]; rfl)
    apply floor_eq_of_bracket
    · exact (isNormal_iff _).mpr (.inr h8)
    · rw [mag_raiseExponent he]
      omega
    · rw [mag_raiseExponent he, raiseExponent_exponent_toNat he, Nat.pow_succ]
      omega

/-- Settles O24: the loop by one turn of it, and the rounding by the gap above the answer. -/
theorem floorIsGreatestNotAbove : Obligations.FloorIsGreatestNotAbove := by
  unfold Obligations.FloorIsGreatestNotAbove
  exact ⟨fun _ => floor_of_lt, fun _ => floor_of_le, fun v => ⟨mag_floor_le v, fun _ => mag_le_mag_floor⟩⟩

/-- R65: the row of the table: between 32 and 524,287 the exponent is the `e` with `8 * 4^e ≤ v < 32 * 4^e`, and the mantissa is
the quotient. -/
theorem floor_row {v : Nat} (hv : v < 524288) (h32 : 32 ≤ v) :
    8 * 4 ^ (floor v).exponent.toNat ≤ v ∧ v < 32 * 4 ^ (floor v).exponent.toNat ∧
    (floor v).mantissa.toNat = v / 4 ^ (floor v).exponent.toNat ∧ 8 ≤ (floor v).mantissa.toNat := by
  have h8 : 8 ≤ (floor v).mantissa.toNat := eight_le_floor_mantissa (by omega)
  rcases floor_cases v with ⟨e, -, hm, he, hlt, -⟩ | ⟨hbig, -⟩
  · have hpos : 0 < 4 ^ e := by positivity
    rw [hm] at h8 ⊢
    rw [he]
    exact ⟨(Nat.le_div_iff_mul_le hpos).mp h8, (Nat.div_lt_iff_lt_mul hpos).mp hlt, rfl, h8⟩
  · omega

/-- R65: the most significant bit of a value between `8 * 4^e` and `32 * 4^e` is bit `2 e + 3` or bit `2 e + 4`. -/
theorem log2_sub_three_shiftRight {v e : Nat} (hlo : 8 * 4 ^ e ≤ v) (hhi : v < 32 * 4 ^ e) :
    (Nat.log2 v - 3) >>> 1 = e := by
  have hpow : 4 ^ e = 2 ^ (2 * e) := by rw [Nat.pow_mul]
  have hv : v ≠ 0 := by
    have : 0 < 4 ^ e := by positivity
    omega
  have hmsb : 2 * e + 3 ≤ Nat.log2 v := (Nat.le_log2 hv).mpr (by rw [Nat.pow_add]; omega)
  have hmsb' : Nat.log2 v < 2 * e + 5 := (Nat.log2_lt hv).mpr (by rw [Nat.pow_add]; omega)
  rw [Nat.shiftRight_eq_div_pow]
  omega

/-- R65: the closed form between 32 and 524,287. -/
theorem floor_eq_shiftRight {v : Nat} (hv : v < 524288) (h32 : 32 ≤ v) :
    floor v = { mantissa := BitVec.ofNat 5 (v >>> (2 * ((Nat.log2 v - 3) >>> 1))),
                exponent := BitVec.ofNat 3 ((Nat.log2 v - 3) >>> 1) } := by
  obtain ⟨hlo, hhi, hm, -⟩ := floor_row hv h32
  rw [log2_sub_three_shiftRight hlo hhi, Nat.shiftRight_eq_div_pow, Nat.pow_mul, ← hm, BitVec.ofNat_toNat,
    BitVec.ofNat_toNat, BitVec.setWidth_eq, BitVec.setWidth_eq]

/-- Settles O26: `SAT` by its threshold, the rows by the quotient `floor` answers, and the errors as less than one unit, of
which the magnitude holds at least 8. -/
theorem floorClosedForm : Obligations.FloorClosedForm := by
  unfold Obligations.FloorClosedForm
  refine ⟨fun v => ?_, fun v => floor_row, fun v hv => ?_, fun v h32 hv => ?_⟩
  · split_ifs with hbig hsmall
    · exact (floor_eq_satNumeral_iff v).mpr (by omega)
    · exact floor_of_lt hsmall
    · exact floor_eq_shiftRight (by omega) (by omega)
  · obtain ⟨hle, hlt⟩ := floor_bracket (by omega : v < 524288)
    omega
  · obtain ⟨hle, hlt⟩ := floor_bracket (by omega : v < 524288)
    have hmag : 8 * 4 ^ (floor v).exponent.toNat ≤ mag (floor v) :=
      Nat.mul_le_mul_right _ (eight_le_floor_mantissa (by omega))
    omega

end Sys2Proof.Machine
end

section
/-! `ceil` over all natural numbers (40_encoder.md R66, R68): `floor` where that is exact, and the next normal form elsewhere. -/

namespace Sys2Proof.Machine

theorem ceil_eq_satNumeral_of_lt {v : Nat} (hv : 507904 < v) : ceil v = satNumeral := by
  have hsat : floor v = satNumeral := (floor_eq_satNumeral_iff v).mpr hv.le
  rw [ceil_eq, if_pos (.inl hsat), hsat]

theorem ceil_of_representable {v : Nat} (hv : Representable v) : ceil v = floor v := by
  rw [ceil_eq, if_pos (.inr ((mag_floor_eq_iff v).mpr hv))]

/-- R66: past the first two arms, `ceil` goes up from a floor that is not `SAT`. -/
theorem ceil_of_inexact {v : Nat} (hsat : floor v ≠ satNumeral) (hne : mag (floor v) ≠ v) :
    ceil v = nextNormal (floor v) := by
  rw [ceil_eq, if_neg (not_or_intro hsat hne)]

/-- An inexact value up to 507,904 is below it, and `floor` has not saturated. -/
theorem floor_ne_satNumeral {v : Nat} (hv : v ≤ 507904) (hr : ¬ Representable v) : floor v ≠ satNumeral := by
  intro hsat
  have hle := (floor_eq_satNumeral_iff v).mp hsat
  exact hr ⟨satNumeral, hle.antisymm hv⟩

theorem ceil_of_not_representable {v : Nat} (hv : v ≤ 507904) (hr : ¬ Representable v) : ceil v = nextNormal (floor v) :=
  ceil_of_inexact (floor_ne_satNumeral hv hr) (mt (mag_floor_eq_iff v).mp hr)

/-- R69, law L11: an inexact value goes up by one unit of its floor. -/
theorem mag_ceil_of_not_representable {v : Nat} (hv : v ≤ 507904) (hr : ¬ Representable v) :
    mag (ceil v) = mag (floor v) + 4 ^ (floor v).exponent.toNat := by
  rw [ceil_of_not_representable hv hr, mag_nextNormal (floor_ne_satNumeral hv hr)]

theorem le_mag_ceil {v : Nat} (hv : v ≤ 507904) : v ≤ mag (ceil v) := by
  by_cases hr : Representable v
  · rw [ceil_of_representable hr, (mag_floor_eq_iff v).mpr hr]
  · rw [mag_ceil_of_not_representable hv hr]
    exact (lt_mag_floor_add (floor_ne_satNumeral hv hr)).le

/-- The least representable magnitude not below: the value itself or, no magnitude being representable within the unit above its
floor, the end of that unit. -/
theorem mag_ceil_le {c : Numeral} {v : Nat} (h : v ≤ mag c) : mag (ceil v) ≤ mag c := by
  by_cases hr : Representable v
  · rw [ceil_of_representable hr]
    exact (mag_floor_le v).trans h
  · have hv : v ≤ 507904 := h.trans (mag_le_maxMag c)
    have hinexact : mag (floor v) < v := (mag_floor_le v).lt_of_ne (mt (mag_floor_eq_iff v).mp hr)
    rw [mag_ceil_of_not_representable hv hr]
    by_contra hgt
    exact not_representable_between (isNormal_floor v) (floor_ne_satNumeral hv hr) (hinexact.trans_le h) (by omega)
      ⟨c, rfl⟩

/-- R61, R64: `ceil` saturates past 491,520, the magnitude of (30, 7), which `SAT` follows. -/
theorem ceil_eq_satNumeral_iff (v : Nat) : ceil v = satNumeral ↔ 491520 < v := by
  constructor
  · intro hsat
    by_contra hv
    have hle : mag (ceil v) ≤ 491520 := mag_ceil_le (c := ⟨30, 7⟩) (show v ≤ 491520 by omega)
    have := (mag_eq_maxMag_iff _).mpr hsat
    omega
  · intro hlt
    by_cases hv : v ≤ 507904
    · have hgap : ¬ mag (ceil v) < 507904 := fun h =>
        not_representable_between (c := ⟨30, 7⟩) rfl (by decide) (hlt.trans_le (le_mag_ceil hv)) h ⟨_, rfl⟩
      exact (mag_eq_maxMag_iff _).mp ((mag_le_maxMag _).antisymm (Nat.le_of_not_lt hgap))
    · exact ceil_eq_satNumeral_of_lt (by omega)

/-- Settles O27: the arms by `ceil_eq` and the two ways up of `nextNormal`, the rounding by the gap above the floor. -/
theorem ceilIsLeastNotBelow : Obligations.CeilIsLeastNotBelow := by
  unfold Obligations.CeilIsLeastNotBelow
  refine ⟨fun v => ⟨fun hsat => ?_, fun hexact => ?_, fun hne hm => ?_, fun hne hm he => ?_⟩,
    fun v hv => ⟨le_mag_ceil hv, fun _ => mag_ceil_le⟩, fun v hv => ⟨ceil_eq_satNumeral_of_lt hv, ?_⟩⟩
  · rw [ceil_eq, if_pos (.inl ((meq_satNumeral_iff _).mp hsat))]
  · rw [ceil_eq, if_pos (.inr hexact)]
  · have hsat : floor v ≠ satNumeral := fun hsat => absurd hm (by rw [hsat]; decide)
    rw [ceil_of_inexact hsat hne, nextNormal, if_pos hm]
  · have hsat : floor v ≠ satNumeral := fun hsat => absurd he (by rw [hsat]; decide)
    rw [ceil_of_inexact hsat hne, nextNormal, if_neg (by omega)]
  · rintro ⟨c, hc⟩
    have := mag_le_maxMag c
    omega

/-- The numeral (31, e): the last of its exponent, from which `ceil` carries. -/
def lastOfExponent (e : Nat) : Numeral := { mantissa := 31, exponent := BitVec.ofNat 3 e }

theorem lastOfExponent_exponent_toNat {e : Nat} (he : e ≤ 7) : (lastOfExponent e).exponent.toNat = e := by
  rw [lastOfExponent, BitVec.toNat_ofNat, Nat.mod_eq_of_lt (by omega)]

theorem mag_lastOfExponent {e : Nat} (he : e ≤ 7) : mag (lastOfExponent e) = 31 * 4 ^ e := by
  rw [mag_eq, lastOfExponent_exponent_toNat he]
  rfl

theorem lastOfExponent_ne_satNumeral {e : Nat} (he : e ≤ 6) : lastOfExponent e ≠ satNumeral := by
  intro h
  have h7 : (lastOfExponent e).exponent.toNat = 7 := by rw [h]; rfl
  rw [lastOfExponent_exponent_toNat (by omega)] at h7
  omega

theorem nextNormal_lastOfExponent (e : Nat) :
    nextNormal (lastOfExponent e) = { mantissa := 8, exponent := BitVec.ofNat 3 (e + 1) } := by
  rw [BitVec.ofNat_add]
  rfl

/-- The values strictly between `31 * 4^e` and `32 * 4^e` have (31, e) as floor. -/
theorem floor_eq_lastOfExponent {v e : Nat} (he : e ≤ 6) (hlo : 31 * 4 ^ e < v) (hhi : v < 32 * 4 ^ e) :
    floor v = lastOfExponent e := by
  have hmag := mag_lastOfExponent (by omega : e ≤ 7)
  apply floor_eq_of_bracket
  · exact (isNormal_iff _).mpr (.inr (by decide : 8 ≤ (31 : Mantissa).toNat))
  · omega
  · rw [lastOfExponent_exponent_toNat (by omega)]
    omega

/-- R68: a value strictly between `31 * 4^e` and `32 * 4^e` carries. -/
theorem ceil_carries {v e : Nat} (he : e ≤ 6) (hlo : 31 * 4 ^ e < v) (hhi : v < 32 * 4 ^ e) :
    ceil v = nextNormal (lastOfExponent e) := by
  have hfloor := floor_eq_lastOfExponent he hlo hhi
  have hmag := mag_lastOfExponent (by omega : e ≤ 7)
  rw [← hfloor]
  exact ceil_of_inexact (by rw [hfloor]; exact lastOfExponent_ne_satNumeral he) (by rw [hfloor]; omega)

/-- Where the carry arm is taken, the value lies in the unit that ends the exponent of its floor. -/
theorem bracket_of_carry {v : Nat} (hsat : floor v ≠ satNumeral) (hne : mag (floor v) ≠ v)
    (hm : (floor v).mantissa.toNat = 31) :
    31 * 4 ^ (floor v).exponent.toNat < v ∧ v < 32 * 4 ^ (floor v).exponent.toNat := by
  have hle := mag_floor_le v
  have hlt := lt_mag_floor_add hsat
  have hmag := mag_eq (floor v)
  rw [hm] at hmag
  omega

/-- Settles O28: the floor of a value that carries is (31, e), with `e` not 0, where `floor` is exact, and not 7, where it would be
`SAT`. -/
theorem ceilCarryAndDeadArm : Obligations.CeilCarryAndDeadArm := by
  unfold Obligations.CeilCarryAndDeadArm
  refine ⟨fun v => ⟨?_, ?_⟩, fun v e _ he hlo hhi => ?_, ?_⟩
  · rintro ⟨hmeq, hne, hm⟩
    have hsat : floor v ≠ satNumeral := fun h => by simp [(meq_satNumeral_iff _).mpr h] at hmeq
    obtain ⟨hlo, hhi⟩ := bracket_of_carry hsat hne hm
    have he0 : (floor v).exponent.toNat ≠ 0 := fun he => by
      rw [he] at hlo hhi
      omega
    have he7 : (floor v).exponent.toNat ≠ 7 := fun he => hsat (numeral_ext hm he)
    have he := exponent_lt (floor v)
    exact ⟨_, by omega, by omega, hlo, hhi⟩
  · rintro ⟨e, -, he, hlo, hhi⟩
    rw [floor_eq_lastOfExponent he hlo hhi, ← Bool.not_eq_true, meq_satNumeral_iff, mag_lastOfExponent (by omega)]
    exact ⟨lastOfExponent_ne_satNumeral he, by omega, rfl⟩
  · refine ⟨floor_eq_lastOfExponent he hlo hhi, (ceil_carries he hlo hhi).trans (nextNormal_lastOfExponent e), ?_⟩
    rw [ceil_carries he hlo hhi, mag_nextNormal (lastOfExponent_ne_satNumeral he), mag_lastOfExponent (by omega),
      lastOfExponent_exponent_toNat (by omega)]
    ring
  · rintro ⟨v, hmeq, -, hm, he⟩
    have hsat : floor v = satNumeral := numeral_ext hm he
    simp [(meq_satNumeral_iff _).mpr hsat] at hmeq

end Sys2Proof.Machine
end

section
/-! The laws of the two roundings (40_encoder.md R69). -/

namespace Sys2Proof.Machine

theorem representable_of_lt {v : Nat} (hv : v < 32) : Representable v := (representable_iff v).mpr (.inl hv)

theorem mag_ceil_of_representable {v : Nat} (hv : Representable v) : mag (ceil v) = v := by
  rw [ceil_of_representable hv, (mag_floor_eq_iff v).mpr hv]

/-- R69, law L13: the roundings of an inexact value below 507,904 are a unit apart. -/
theorem floor_eq_ceil_iff (v : Nat) : floor v = ceil v ↔ Representable v ∨ 507904 ≤ v := by
  constructor
  · intro h
    by_contra hnot
    obtain ⟨hr, hv⟩ := not_or.mp hnot
    have hgap := mag_ceil_of_not_representable (by omega) hr
    have hpos : 0 < 4 ^ (floor v).exponent.toNat := by positivity
    rw [← h] at hgap
    omega
  · rintro (hr | hv)
    · exact (ceil_of_representable hr).symm
    · rw [(floor_eq_satNumeral_iff v).mpr hv, (ceil_eq_satNumeral_iff v).mpr (by omega)]

/-- Settles O29: a representable value is its own rounding in both directions. -/
theorem exactValuesRoundAlike : Obligations.ExactValuesRoundAlike := by
  unfold Obligations.ExactValuesRoundAlike
  refine ⟨fun v hv => ?_, fun v hr => ?_, fun v => (biteq_iff_eq _ _).trans (floor_eq_ceil_iff v)⟩
  · have hr := representable_of_lt hv
    exact ⟨(mag_floor_eq_iff v).mpr hr, mag_ceil_of_representable hr⟩
  · exact (biteq_iff_eq _ _).mpr ((floor_eq_ceil_iff v).mpr (.inl hr))

/-- Settles O30: the greater value's `floor` is not below any magnitude that the smaller value is not below, and its `ceil` is one
that the smaller value is not above, or `SAT`. -/
theorem roundingIsMonotone : Obligations.RoundingIsMonotone := by
  unfold Obligations.RoundingIsMonotone
  refine fun v w hvw => ⟨mag_le_mag_floor ((mag_floor_le v).trans hvw), ?_⟩
  by_cases hw : w ≤ 507904
  · exact mag_ceil_le (hvw.trans (le_mag_ceil hw))
  · rw [ceil_eq_satNumeral_of_lt (by omega : 507904 < w)]
    exact mag_le_maxMag _

/-- Settles O31: a decoded magnitude is representable, so both roundings keep it and answer its normal form. -/
theorem reencodingNormalises : Obligations.ReencodingNormalises := by
  unfold Obligations.ReencodingNormalises
  refine ⟨fun c => ?_, fun v => ⟨floor_mag (isNormal_floor v), ceil_mag (isNormal_ceil v)⟩⟩
  have hr : Representable (mag c) := ⟨c, rfl⟩
  have hnormal := isNormal_floor (mag c)
  exact ⟨(ceil_of_representable hr).symm, hnormal, beq_iff_eq.mpr ((mag_floor_eq_iff _).mpr hr),
    fun h => h ▸ hnormal, floor_mag⟩

theorem exponent_le_nextNormal {c : Numeral} (hsat : c ≠ satNumeral) :
    c.exponent.toNat ≤ (nextNormal c).exponent.toNat := by
  have := nextNormal_cases hsat
  omega

/-- R69, law L12: one unit less 1 above the value lies at the end of the unit of an exact floor, and in the next unit of an
inexact one. -/
theorem ceil_eq_floor_add {v : Nat} (hv : v ≤ 507904) : ceil v = floor (v + 4 ^ (floor v).exponent.toNat - 1) := by
  have hpos : 0 < 4 ^ (floor v).exponent.toNat := by positivity
  by_cases hr : Representable v
  · have hexact := (mag_floor_eq_iff v).mpr hr
    rw [ceil_of_representable hr]
    exact (floor_eq_of_bracket (isNormal_floor v) (by omega) (by omega)).symm
  · have hsat := floor_ne_satNumeral hv hr
    have hgap := mag_nextNormal hsat
    have hle := mag_floor_le v
    have hne := mt (mag_floor_eq_iff v).mp hr
    have hlt := lt_mag_floor_add hsat
    have hunit : 4 ^ (floor v).exponent.toNat ≤ 4 ^ (nextNormal (floor v)).exponent.toNat :=
      Nat.pow_le_pow_right (by decide) (exponent_le_nextNormal hsat)
    rw [ceil_of_not_representable hv hr]
    exact (floor_eq_of_bracket (isNormal_nextNormal (isNormal_floor v) hsat) (by omega) (by omega)).symm

/-- Settles O32: the gap is that to the next normal form, and the closed form finds the normal form whose unit is reached. -/
theorem roundingGapAndCeilClosedForm : Obligations.RoundingGapAndCeilClosedForm := by
  unfold Obligations.RoundingGapAndCeilClosedForm
  refine ⟨fun v => mag_ceil_of_not_representable, fun v => ?_⟩
  split
  · next hv => exact ceil_eq_satNumeral_of_lt hv
  · next hv => exact ceil_eq_floor_add (by omega)

end Sys2Proof.Machine
end

section
/-! The encoder at the port (40_encoder.md R58, R60, R63, R64, R67). -/

namespace Sys2Proof.Machine

theorem exec_zero (s : State) : exec .zero s = .next (s.answer (byteResult zeroNumeral)) := rfl

theorem exec_sat (s : State) : exec .sat s = .next (s.answer (byteResult satNumeral)) := rfl

theorem exec_floor (v : Word) (s : State) : exec (.floor v) s = .next (s.answer (byteResult (floor v.toNat))) := rfl

theorem exec_ceil (v : Word) (s : State) : exec (.ceil v) s = .next (s.answer (byteResult (ceil v.toNat))) := rfl

/-- R45: a byte result is the byte `32 e + m` zero-filled. -/
theorem byteResult_eq_ofNat (c : Numeral) :
    byteResult c = BitVec.ofNat 32 (c.exponent.toNat * 32 + c.mantissa.toNat) := by
  rw [← byteResult_toNat, BitVec.ofNat_toNat, BitVec.setWidth_eq]

theorem floor_zero : floor 0 = zeroNumeral := floor_of_lt (by decide)

theorem ceil_zero : ceil 0 = zeroNumeral := by
  rw [ceil_of_representable (representable_of_lt (by decide)), floor_zero]

/-- Settles O25: the thresholds of the two roundings, which are the same at the port. -/
theorem overflowSaturates : Obligations.OverflowSaturates := by
  unfold Obligations.OverflowSaturates
  refine ⟨fun v => ⟨floor_eq_satNumeral_iff v, ceil_eq_satNumeral_iff v⟩, fun v s => ⟨fun hv => ?_, fun hv => ?_⟩⟩
  · rw [exec_floor, (floor_eq_satNumeral_iff _).mpr hv, exec_sat]
  · rw [exec_ceil, (ceil_eq_satNumeral_iff _).mpr hv, exec_sat]

/-- Settles O7: 0 is the magnitude of (0, 0), whose byte is 0. -/
theorem zeroAnswersZeroByte : Obligations.ZeroAnswersZeroByte := by
  unfold Obligations.ZeroAnswersZeroByte
  intro a s
  have hzero : (0 : Word).toNat = 0 := rfl
  refine ⟨decodeRequest_zero a, rfl, floor_zero, ceil_zero, ?_, ?_⟩
  · rw [exec_floor, hzero, floor_zero, exec_zero]
  · rw [exec_ceil, hzero, ceil_zero, exec_zero]

/-- Settles O8: the byte of `SAT` computes to 0xFF. -/
theorem satAnswersMaximumByte : Obligations.SatAnswersMaximumByte := by
  unfold Obligations.SatAnswersMaximumByte
  intro a s
  have hsat : unpack 0xFF = satNumeral := unpack_pack satNumeral
  exact ⟨decodeRequest_sat a, rfl, hsat, (mag_eq_maxMag_iff _).mpr hsat⟩

/-- Settles O9: the byte result of `floor`, as a number. -/
theorem floorAnswersPackedFloor : Obligations.FloorAnswersPackedFloor := by
  unfold Obligations.FloorAnswersPackedFloor
  intro a s
  exact ⟨decodeRequest_floor a, by rw [exec_floor, byteResult_eq_ofNat, State.answer]⟩

/-- Settles O10: the byte result of `ceil`, as a number. -/
theorem ceilAnswersPackedCeil : Obligations.CeilAnswersPackedCeil := by
  unfold Obligations.CeilAnswersPackedCeil
  intro a s
  exact ⟨decodeRequest_ceil a, by rw [exec_ceil, byteResult_eq_ofNat, State.answer]⟩

end Sys2Proof.Machine
end

section
/-! The decoder family at the port (41_decoder.md R72, R74, R75, R77, R78): which fields of `a` are read, and the response as a
number and bit by bit. -/

namespace Sys2Proof.Machine

theorem exec_unpack (b : Byte) (s : State) : exec (.unpack b) s = .next (s.answer (fieldsResult (unpack b))) := rfl

theorem exec_decode (b : Byte) (s : State) :
    exec (.decode b) s = .next (s.answer (magnitudeResult (mag (unpack b)))) := rfl

theorem exec_pack (m : Mantissa) (e : Exponent) (s : State) :
    exec (.pack m e) s = .next (s.answer (byteResult { mantissa := m, exponent := e })) := rfl

/-! ### The operand fields as numbers -/

theorem lowByte_eq_ofNat (a : Word) : lowByte a = BitVec.ofNat 8 a.toNat := by
  apply BitVec.eq_of_toNat_eq
  rw [lowByte_toNat, BitVec.toNat_ofNat]

theorem mantissaField_eq_ofNat (a : Word) : mantissaField a = BitVec.ofNat 5 a.toNat := by
  apply BitVec.eq_of_toNat_eq
  rw [mantissaField_toNat, BitVec.toNat_ofNat]

theorem exponentField_eq_ofNat (a : Word) : exponentField a = BitVec.ofNat 3 (a.toNat / 256) := by
  apply BitVec.eq_of_toNat_eq
  rw [exponentField_toNat, BitVec.toNat_ofNat]

/-! ### The responses as numbers -/

/-- R45: a fields result is the mantissa with the exponent at bit 8. -/
theorem fieldsResult_eq_ofNat (c : Numeral) :
    fieldsResult c = BitVec.ofNat 32 (c.exponent.toNat * 256 + c.mantissa.toNat) := by
  rw [← fieldsResult_toNat, BitVec.ofNat_toNat, BitVec.setWidth_eq]

/-- Settles O11: the fields result of the low byte, whose fields are its remainder and quotient by 32. -/
theorem unpackAnswersFields : Obligations.UnpackAnswersFields := by
  unfold Obligations.UnpackAnswersFields
  refine ⟨fun a => ?_, fun b s => ?_⟩
  · rw [decodeRequest_unpack, lowByte_eq_ofNat]
  · rw [exec_unpack, fieldsResult_eq_ofNat, unpack_mantissa_toNat, unpack_exponent_toNat, State.answer]

/-- Settles O12: the magnitude of the low byte, which is at most that of `SAT`. -/
theorem decodeAnswersMagnitude : Obligations.DecodeAnswersMagnitude := by
  unfold Obligations.DecodeAnswersMagnitude
  refine ⟨fun a => ?_, fun b s => ?_⟩
  · rw [decodeRequest_decode, lowByte_eq_ofNat]
  · rw [← mag_unpack]
    exact ⟨exec_decode b s, mag_le_maxMag _⟩

/-- Settles O13: the byte result of the two fields, as a number. -/
theorem packAnswersByte : Obligations.PackAnswersByte := by
  unfold Obligations.PackAnswersByte
  refine ⟨fun a => ?_, fun m e s => ?_⟩
  · rw [decodeRequest_pack, mantissaField_eq_ofNat, exponentField_eq_ofNat]
  · rw [exec_pack, byteResult_eq_ofNat, State.answer]

/-! ### The responses bit by bit -/

theorem unpack_mantissa_getLsbD (b : Byte) {i : Nat} (hi : i < 5) : (unpack b).mantissa.getLsbD i = b.getLsbD i := by
  rw [← BitVec.testBit_toNat, unpack_mantissa_toNat, Nat.testBit_mod_two_pow b.toNat 5 i, decide_eq_true hi,
    Bool.true_and, BitVec.testBit_toNat]

theorem unpack_exponent_getLsbD (b : Byte) (i : Nat) : (unpack b).exponent.getLsbD i = b.getLsbD (i + 5) := by
  rw [← BitVec.testBit_toNat, unpack_exponent_toNat, Nat.testBit_div_two_pow (n := 5), BitVec.testBit_toNat]

/-- A field placed at bit `k` of a word it fits: its own bits there, and zeros elsewhere. -/
theorem getLsbD_shiftLeft_setWidth {w n k : Nat} (x : BitVec w) (h : k + w ≤ n) (i : Nat) :
    (x.setWidth n <<< k).getLsbD i = if k ≤ i ∧ i < k + w then x.getLsbD (i - k) else false := by
  rw [BitVec.getLsbD_shiftLeft, BitVec.getLsbD_setWidth]
  split_ifs with hi
  · simp [show i < n by omega, show ¬ i < k by omega, show i - k < n by omega]
  · by_cases hk : i < k
    · simp [hk]
    · simp [BitVec.getLsbD_of_ge x (i - k) (by omega)]

/-- A mantissa at bit 0 and an exponent at bit `k` above it. -/
theorem getLsbD_exponent_or_mantissa {n k : Nat} (c : Numeral) (hk : 5 ≤ k) (h : k + 3 ≤ n) (i : Nat) :
    ((c.exponent.setWidth n <<< k) ||| c.mantissa.setWidth n).getLsbD i =
      if i < 5 then c.mantissa.getLsbD i else if k ≤ i ∧ i < k + 3 then c.exponent.getLsbD (i - k) else false := by
  have hmant := getLsbD_shiftLeft_setWidth (n := n) (k := 0) c.mantissa (by omega) i
  rw [BitVec.shiftLeft_zero] at hmant
  rw [BitVec.getLsbD_or, getLsbD_shiftLeft_setWidth c.exponent h, hmant]
  by_cases hi : i < 5
  · simp [hi, show ¬ k ≤ i by omega]
  · simp [hi]

/-- R45: the bits of a fields result. -/
theorem fieldsResult_getLsbD (c : Numeral) (i : Nat) :
    (fieldsResult c).getLsbD i =
      if i < 5 then c.mantissa.getLsbD i else if 8 ≤ i ∧ i < 11 then c.exponent.getLsbD (i - 8) else false :=
  getLsbD_exponent_or_mantissa c (by decide) (by decide) i

/-- R40, R45: the bits of a byte result are those of its byte. -/
theorem byteResult_getLsbD (c : Numeral) (i : Nat) :
    (byteResult c).getLsbD i =
      if i < 5 then c.mantissa.getLsbD i else if i < 8 then c.exponent.getLsbD (i - 5) else false := by
  have hbyte : (byteResult c).getLsbD i = (pack c).getLsbD i := by
    rw [← BitVec.testBit_toNat, ← BitVec.testBit_toNat, byteResult_toNat, pack_toNat]
  rw [hbyte, pack, getLsbD_exponent_or_mantissa c le_rfl le_rfl]
  by_cases hi : i < 5
  · rw [if_pos hi, if_pos hi]
  · simp [hi, show 5 ≤ i by omega]

/-- R17, R75: the magnitude as a word is the mantissa shifted to bit `2 e`. -/
theorem magnitudeResult_mag_eq_shiftLeft (c : Numeral) :
    magnitudeResult (mag c) = c.mantissa.setWidth 32 <<< (2 * c.exponent.toNat) := by
  apply BitVec.eq_of_toNat_eq
  rw [magnitudeResult, (magnitudeRangeAndMaximum.1 c).1, BitVec.toNat_ofNat, BitVec.toNat_shiftLeft,
    BitVec.toNat_setWidth_of_le (by decide)]

/-- R75: the bits of a magnitude result. -/
theorem magnitudeResult_mag_getLsbD (c : Numeral) (i : Nat) :
    (magnitudeResult (mag c)).getLsbD i =
      if 2 * c.exponent.toNat ≤ i ∧ i < 2 * c.exponent.toNat + 5 then c.mantissa.getLsbD (i - 2 * c.exponent.toNat)
      else false := by
  have hexp := exponent_lt c
  rw [magnitudeResult_mag_eq_shiftLeft, getLsbD_shiftLeft_setWidth c.mantissa (by omega)]

/-- Settles O15: the bits of the two result formats, those of a byte's fields being bits of the byte. -/
theorem unpackAndPackMoveBits : Obligations.UnpackAndPackMoveBits := by
  unfold Obligations.UnpackAndPackMoveBits
  refine ⟨fun b s => ⟨_, exec_unpack b s, fun i => ?_⟩, fun m e s => ⟨_, exec_pack m e s, byteResult_getLsbD _⟩⟩
  rw [State.answer_r, fieldsResult_getLsbD]
  split_ifs with hmant hexp
  · exact unpack_mantissa_getLsbD b hmant
  · rw [unpack_exponent_getLsbD, show i - 8 + 5 = i - 3 by omega]
  · rfl

/-- Settles O16: the bits of the magnitude, those of the mantissa being bits of the byte. -/
theorem decodePlacesMantissaAtTwiceExponent : Obligations.DecodePlacesMantissaAtTwiceExponent := by
  unfold Obligations.DecodePlacesMantissaAtTwiceExponent
  refine fun b s => ⟨_, exec_decode b s, fun i => ?_⟩
  rw [State.answer_r, magnitudeResult_mag_getLsbD, unpack_exponent_toNat]
  split_ifs with hmant
  · exact unpack_mantissa_getLsbD b (by omega)
  · rfl

end Sys2Proof.Machine
end

section
/-! Round trips at the ports (41_decoder.md R76, R79, R80): each response format is read back by the operations that take it as
operand, so that a chain of requests is a chain of functions on numerals. -/

namespace Sys2Proof.Machine

theorem byteResult_unpack (b : Byte) : byteResult (unpack b) = b.setWidth 32 := by rw [byteResult, pack_unpack]

theorem lowByte_byteResult (c : Numeral) : lowByte (byteResult c) = pack c := lowByte_operandOf_unpack (pack c)

theorem byteResult_inj {c d : Numeral} : byteResult c = byteResult d ↔ c = d := by
  refine ⟨fun h => pack_inj.mp ?_, congrArg byteResult⟩
  rw [← lowByte_byteResult, h, lowByte_byteResult]

theorem magnitudeResult_inj {c d : Numeral} :
    magnitudeResult (mag c) = magnitudeResult (mag d) ↔ mag c = mag d := by
  rw [BitVec.toNat_eq, magnitudeResult_mag_toNat, magnitudeResult_mag_toNat]

/-! ### One request on the response of another -/

theorem blockExec_unpack_byteResult (c : Numeral) : blockExec 4 (byteResult c) = fieldsResult c := by
  change fieldsResult (unpack (lowByte (byteResult c))) = _
  rw [lowByte_byteResult, unpack_pack]

theorem blockExec_decode_byteResult_eq (c : Numeral) : blockExec 5 (byteResult c) = magnitudeResult (mag c) := by
  change magnitudeResult (mag (unpack (lowByte (byteResult c)))) = _
  rw [lowByte_byteResult, unpack_pack]

theorem mantissaField_fieldsResult (c : Numeral) : mantissaField (fieldsResult c) = c.mantissa :=
  mantissaField_operandOf_pack c.mantissa c.exponent

theorem exponentField_fieldsResult (c : Numeral) : exponentField (fieldsResult c) = c.exponent :=
  exponentField_operandOf_pack c.mantissa c.exponent

theorem blockExec_pack_fieldsResult (c : Numeral) : blockExec 6 (fieldsResult c) = byteResult c := by
  change byteResult { mantissa := mantissaField (fieldsResult c), exponent := exponentField (fieldsResult c) } = _
  rw [mantissaField_fieldsResult, exponentField_fieldsResult]

theorem blockExec_floor_magnitudeResult (c : Numeral) :
    blockExec 2 (magnitudeResult (mag c)) = byteResult (floor (mag c)) := by
  change byteResult (floor (magnitudeResult (mag c)).toNat) = _
  rw [magnitudeResult_mag_toNat]

theorem blockExec_ceil_magnitudeResult (c : Numeral) :
    blockExec 3 (magnitudeResult (mag c)) = byteResult (ceil (mag c)) := by
  change byteResult (ceil (magnitudeResult (mag c)).toNat) = _
  rw [magnitudeResult_mag_toNat]

/-- Two byte results put side by side are compared as their numerals. -/
theorem blockExec_eq_byteResults (c d : Numeral) :
    blockExec 7 ((byteResult d <<< 8) ||| byteResult c) = flagResult (meq c d) := by
  change flagResult (meq (unpack (lowByte (operandOf (.eq (pack c) (pack d)))))
    (unpack (secondByte (operandOf (.eq (pack c) (pack d)))))) = _
  rw [lowByte_operandOf_eq, secondByte_operandOf_eq, unpack_pack, unpack_pack]

/-! ### The round trips -/

/-- The fields written as numbers are the fields result of their numeral. -/
theorem ofNat_fields_eq_fieldsResult {m e : Nat} (hm : m ≤ 31) (he : e ≤ 7) :
    BitVec.ofNat 32 (e * 256 + m) = fieldsResult { mantissa := BitVec.ofNat 5 m, exponent := BitVec.ofNat 3 e } :=
  (operandOf_pack_ofNat hm he).symm

theorem mag_ofNat_fields {m e : Nat} (hm : m ≤ 31) (he : e ≤ 7) :
    mag { mantissa := BitVec.ofNat 5 m, exponent := BitVec.ofNat 3 e } = m * 4 ^ e := by
  rw [mag_eq, BitVec.toNat_ofNat, BitVec.toNat_ofNat, Nat.mod_eq_of_lt (by omega), Nat.mod_eq_of_lt (by omega)]

/-- Settles O34: a fields result is read back by `CTF.PACK`, and a byte result by `CTF.UNPACK` and `CTF.DECODE`; the magnitude is
the mantissa shifted to bit `2 e`. -/
theorem packUnpackRequestRoundTrips : Obligations.PackUnpackRequestRoundTrips := by
  unfold Obligations.PackUnpackRequestRoundTrips
  refine ⟨fun b => ?_, fun m e hm he => ?_, fun b => ?_⟩
  · rw [← byteResult_unpack, blockExec_unpack_byteResult, blockExec_pack_fieldsResult]
  · rw [ofNat_fields_eq_fieldsResult hm he, blockExec_pack_fieldsResult, blockExec_unpack_byteResult,
      blockExec_decode_byteResult_eq, mag_ofNat_fields hm he]
    exact ⟨rfl, rfl⟩
  · rw [← byteResult_unpack, blockExec_decode_byteResult_eq, blockExec_unpack_byteResult, ← mantissaField,
      ← exponentField, mantissaField_fieldsResult, exponentField_fieldsResult, magnitudeResult_mag_eq_shiftLeft]

/-- Settles O35: a rounding is decoded to its magnitude; a decoded magnitude is representable, so both roundings answer its normal
form. -/
theorem encodeDecodeRequestRoundTrips : Obligations.EncodeDecodeRequestRoundTrips := by
  unfold Obligations.EncodeDecodeRequestRoundTrips
  have decode_floor (v : Word) : (blockExec 5 (blockExec 2 v)).toNat = mag (floor v.toNat) :=
    blockExec_decode_byteResult (floor v.toNat)
  have decode_ceil (v : Word) : (blockExec 5 (blockExec 3 v)).toNat = mag (ceil v.toNat) :=
    blockExec_decode_byteResult (ceil v.toNat)
  refine ⟨fun v => ?_, fun v => ?_, fun b => ?_⟩
  · refine ⟨decode_floor v, mag_floor_le _, decode_ceil v, fun hv => ?_, fun hv => ?_⟩
    · rw [decode_ceil]
      exact le_mag_ceil hv
    · rw [decode_ceil, mag_eq_maxMag_iff]
      exact ceil_eq_satNumeral_of_lt hv
  · rw [BitVec.toNat_eq, decode_floor, mag_floor_eq_iff]
  · obtain ⟨hround, hnormal, hmeq, -⟩ := reencodingNormalises.1 (unpack b)
    rw [← byteResult_unpack, blockExec_decode_byteResult_eq, blockExec_floor_magnitudeResult,
      blockExec_ceil_magnitudeResult, blockExec_eq_byteResults, ← hround]
    refine ⟨rfl, ⟨floor (mag (unpack b)), hnormal, beq_iff_eq.mp hmeq, rfl⟩, ?_⟩
    rw [meq, beq_iff_eq.mp hmeq, beq_self_eq_true]
    rfl

/-- Settles O36: a response of `CTF.DECODE` is a magnitude, and `floor` answers its normal form; the bytes of (16, 1) and (4, 2)
both have magnitude 64. -/
theorem decodeIsInjectiveOnNormalForms : Obligations.DecodeIsInjectiveOnNormalForms := by
  unfold Obligations.DecodeIsInjectiveOnNormalForms
  refine ⟨fun b c => ?_, fun b => ?_, 0x30, 0x44, by decide, by decide⟩
  · rw [← byteResult_unpack, ← byteResult_unpack, blockExec_decode_byteResult_eq, blockExec_decode_byteResult_eq,
      magnitudeResult_inj, meq, beq_iff_eq]
  · obtain ⟨-, -, -, hfixed⟩ := reencodingNormalises.1 (unpack b)
    rw [← byteResult_unpack, blockExec_decode_byteResult_eq, blockExec_floor_magnitudeResult, byteResult_inj, hfixed]

end Sys2Proof.Machine
end

section
/-! The comparison at the port (42_compare.md R81, R83): the two bytes read, and `CTF.EQ` as equality of decoded magnitudes,
from which its laws follow. -/

namespace Sys2Proof.Machine

theorem meq_iff (c d : Numeral) : meq c d = true ↔ mag c = mag d := beq_iff_eq

theorem meq_comm (c d : Numeral) : meq c d = meq d c := BEq.comm

theorem flagResult_eq_one_iff (equal : Bool) : flagResult equal = 1 ↔ equal = true := by
  cases equal <;> decide

/-! ### The operation -/

theorem exec_eq (x y : Byte) (s : State) :
    exec (.eq x y) s = .next (s.answer (flagResult (meq (unpack x) (unpack y)))) := rfl

theorem secondByte_eq_ofNat (a : Word) : secondByte a = BitVec.ofNat 8 (a.toNat / 256) := by
  apply BitVec.eq_of_toNat_eq
  rw [secondByte_toNat, BitVec.toNat_ofNat]

/-- Settles O14: the flag compares the magnitudes of the two low bytes, and that comparison is symmetric. -/
theorem eqAnswersMagnitudeEquality : Obligations.EqAnswersMagnitudeEquality := by
  unfold Obligations.EqAnswersMagnitudeEquality
  refine ⟨fun a => ?_, fun x y s => ⟨?_, ?_⟩⟩
  · rw [decodeRequest_eq, lowByte_eq_ofNat, secondByte_eq_ofNat]
  · simp only [exec_eq, State.answer, flagResult, meq_iff, mag_unpack]
  · rw [exec_eq, exec_eq, meq_comm]

/-! ### Its laws -/

/-- R83's `EQ(x, y)`: the response to the request that holds two bytes side by side. -/
theorem blockExec_eq_bytes (x y : Byte) :
    blockExec 7 ((y.setWidth 32 <<< 8) ||| x.setWidth 32) = flagResult (meq (unpack x) (unpack y)) := by
  rw [← byteResult_unpack, ← byteResult_unpack, blockExec_eq_byteResults]

theorem blockExec_eq_bytes_eq_one_iff (x y : Byte) :
    blockExec 7 ((y.setWidth 32 <<< 8) ||| x.setWidth 32) = 1 ↔ mag (unpack x) = mag (unpack y) := by
  rw [blockExec_eq_bytes, flagResult_eq_one_iff, meq_iff]

/-- A decoded magnitude is representable, so its `floor` has that very magnitude. -/
theorem floor_mag_inj {c d : Numeral} : floor (mag c) = floor (mag d) ↔ mag c = mag d := by
  refine ⟨fun h => ?_, congrArg floor⟩
  rw [← (mag_floor_eq_iff (mag c)).mpr ⟨c, rfl⟩, h, (mag_floor_eq_iff (mag d)).mpr ⟨d, rfl⟩]

theorem blockExec_floor_decode_byte (b : Byte) :
    blockExec 2 (blockExec 5 (b.setWidth 32)) = byteResult (floor (mag (unpack b))) := by
  rw [← byteResult_unpack, blockExec_decode_byteResult_eq, blockExec_floor_magnitudeResult]

/-- Settles O37: an answer of 1 is an equality of magnitudes, an equivalence that `CTF.DECODE` and the normal forms reflect; the
bytes of (16, 1) and (4, 2) both have magnitude 64. -/
theorem eqLaws : Obligations.EqLaws := by
  unfold Obligations.EqLaws
  simp only [blockExec_eq_bytes_eq_one_iff]
  refine ⟨fun _ => trivial, fun x y => ?symmetric, fun _ _ _ => Eq.trans, fun x y => ?decoded,
    fun _ _ => congrArg (mag ∘ unpack), fun x y => ?normalForms, 0x30, 0x44, by decide, by decide⟩
  case symmetric => rw [blockExec_eq_bytes, blockExec_eq_bytes, meq_comm]
  case decoded => rw [decodeIsInjectiveOnNormalForms.1, meq_iff]
  case normalForms => rw [blockExec_floor_decode_byte, blockExec_floor_decode_byte, byteResult_inj, floor_mag_inj]

end Sys2Proof.Machine
end

section
/-! Nothing faults (60_exceptions.md R86): an operation always answers (`exec_answers`), and so does a step, whether a request
is pending or the last one is merely held. -/

namespace Sys2Proof.Machine

/-- The two next states are those that `stepCompletesOneTransaction` writes out. -/
theorem step_answers (s : State) : ∃ t, step s = .next t := by
  obtain ⟨step_pending, step_idle⟩ := stepCompletesOneTransaction
  cases hp : s.pending with
  | nil => exact ⟨_, step_idle s hp⟩
  | cons q rest => exact ⟨_, step_pending s q rest hp⟩

/-- Settles O38: the model's type of faults has no constructor, and every operation and every step answers a next state. -/
theorem nothingFaults : Obligations.NothingFaults := by
  unfold Obligations.NothingFaults
  refine ⟨fun i s => ?operation, step_answers, fun f => nomatch f⟩
  case operation =>
    obtain ⟨w, hw⟩ := exec_answers i s
    exact ⟨s.answer w, hw⟩

end Sys2Proof.Machine
end

section
/-! Every pending request is answered (70_reset_and_hazards.md R109): the induction over the pending list is that of
`run_lists_of_pending`, which holds from every state. -/

namespace Sys2Proof.Machine

/-- Settles O45: `run_lists_of_pending` at the state's own list of pending requests; `responseOf` is the block function's word. -/
theorem runAnswersEveryPendingRequest : Obligations.RunAnswersEveryPendingRequest := by
  unfold Obligations.RunAnswersEveryPendingRequest
  exact fun _ => run_lists_of_pending rfl

end Sys2Proof.Machine
end
